-- ==== Sys2Proof/Word.lean ====
section
/-! DEFINITION. The word types of microfourthirds CORE and the sparse tables its four spaces are held in. -/

namespace Sys2Proof

/-- A byte, "an 8-bit unsigned value; the unit of transport" (R7, R6 `BYTE_W`). -/
abbrev Byte := BitVec 8

/-- A step word of the script ROM (R80, R6 `STEP_W`). -/
abbrev Word := BitVec 16

/-- A number of microseconds as the delay counter holds it (R34, R6 `DLY_W`). -/
abbrev Micros := BitVec 22

/-- One space of R60 to R63: (index, element) pairs, indices strictly rising. -/
abbrev Memory (α : Type) := List (Nat × α)

end Sys2Proof
end

