-- ==== Sys2Proof/Syntax.lean ====
section
/-! DEFINITION. The sixteen steps of the opcode table (R82), one constructor per row. -/

namespace Sys2Proof

/-- A script step with its operands as R81 extracts them. -/
inductive Instr where
  /-- `WLV ACK, v`: plain level poll on `ACK` (R165). -/
  | wlvAck (v : Bool)
  /-- `WLV PWR, v`: plain level poll on `PWR` (R166). -/
  | wlvPwr (v : Bool)
  /-- `WFE`: wait for a falling edge of `ACK` (R167). -/
  | wfe
  /-- `WRE`: wait for a rising edge of `ACK` (R168). -/
  | wre
  /-- `WSL d`: settle, then wait for `ACK` low (R169). -/
  | wsl (d : Byte)
  /-- `WSH d`: settle, then wait for `ACK` high (R170). -/
  | wsh (d : Byte)
  /-- `RDYL`: ready line low (R171). -/
  | rdyl
  /-- `RDYH`: ready line high (R175). -/
  | rdyh
  /-- `RDYT`: ready line low, then high (R184). -/
  | rdyt
  /-- `RDF n`: read a frame of `n` bytes (R172). -/
  | rdf (n : Byte)
  /-- `WRF k`: write the frame of payload `k` (R173). -/
  | wrf (k : BitVec 4)
  /-- `RAWB v`: transmit one byte outside any frame (R174). -/
  | rawb (v : Byte)
  /-- `DLYU c`: wait `c` microseconds (R176). -/
  | dlyu (c : BitVec 12)
  /-- `DLYM c`: wait `c` milliseconds (R177). -/
  | dlym (c : BitVec 12)
  /-- `TRST`: transport reset (R178). -/
  | trst
  /-- `STBY`: Standby (R179). -/
  | stby
  deriving DecidableEq, Repr

end Sys2Proof
end

