-- ==== Sys2Proof/Decode.lean ====
section
/-! DEFINITION. Step words: field extraction, the decoder (total on all 65536 words, rejecting by name), the encoder,
and the mask and match rows of the opcode map (R80 to R89). -/

namespace Sys2Proof

/-- Why a word is illegal (R88). -/
inductive IllegalWord where
  /-- `TAG` 0 or 10 to 15. -/
  | reservedTag
  /-- `TAG = 1` with `SUB >= 6`, `TAG = 2` with `SUB >= 3`, `TAG` in 3, 4, 5, 8, 9 with `SUB != 0`. -/
  | reservedSub
  /-- Operand bits that must be 0 are not. -/
  | operandBitsSet
  deriving DecidableEq, Repr

/-- `TAG = w[15:12]` (R81). -/
def tagOf (w : Word) : BitVec 4 := w.extractLsb' 12 4

/-- `SUB = w[11:8]` (R81). -/
def subOf (w : Word) : BitVec 4 := w.extractLsb' 8 4

/-- `ARG = w[7:0]` (R81). -/
def argOf (w : Word) : Byte := w.extractLsb' 0 8

/-- `OP = w[11:0]` (R80). -/
def opOf (w : Word) : BitVec 12 := w.extractLsb' 0 12

/-- The operand-free step `i`, if the bits that must be 0 are 0 (R88). -/
def decodeBare {w : Nat} (i : Instr) (mustBeZero : BitVec w) : Except IllegalWord Instr :=
  if mustBeZero = 0 then .ok i else .error .operandBitsSet

/-- A step with a level operand: `ARG[0]` is the level, `ARG[7:1]` must be 0 (R83). -/
def decodeLevel (mk : Bool → Instr) (arg : Byte) : Except IllegalWord Instr :=
  if arg.extractLsb' 1 7 = 0 then .ok (mk (arg.getLsbD 0)) else .error .operandBitsSet

/-- The Wait family, `TAG = 1` (R83). -/
def decodeWait (sub : BitVec 4) (arg : Byte) : Except IllegalWord Instr :=
  match sub.toNat with
  | 0 => decodeLevel .wlvAck arg
  | 1 => decodeLevel .wlvPwr arg
  | 2 => decodeBare .wfe arg
  | 3 => decodeBare .wre arg
  | 4 => .ok (.wsl arg)
  | 5 => .ok (.wsh arg)
  | _ => .error .reservedSub

/-- The ready-line family, `TAG = 2` (R84). -/
def decodeReady (sub : BitVec 4) (arg : Byte) : Except IllegalWord Instr :=
  match sub.toNat with
  | 0 => decodeBare .rdyl arg
  | 1 => decodeBare .rdyh arg
  | 2 => decodeBare .rdyt arg
  | _ => .error .reservedSub

/-- `TAG = 4`: `ARG[3:0] = k`, `ARG[7:4]` must be 0 (R85). -/
def decodeWriteFrame (arg : Byte) : Except IllegalWord Instr :=
  if arg.extractLsb' 4 4 = 0 then .ok (.wrf (arg.extractLsb' 0 4)) else .error .operandBitsSet

/-- A family whose `SUB` must be 0 (R85, R87). -/
def decodeSubZero (sub : BitVec 4) (r : Except IllegalWord Instr) : Except IllegalWord Instr :=
  if sub = 0 then r else .error .reservedSub

/-- Decoding: "a total function from 16-bit words to `legal step | illegal`. It reads nothing but the word" (R89). -/
def decode (w : Word) : Except IllegalWord Instr :=
  match (tagOf w).toNat with
  | 1 => decodeWait (subOf w) (argOf w)
  | 2 => decodeReady (subOf w) (argOf w)
  | 3 => decodeSubZero (subOf w) (.ok (.rdf (argOf w)))
  | 4 => decodeSubZero (subOf w) (decodeWriteFrame (argOf w))
  | 5 => decodeSubZero (subOf w) (.ok (.rawb (argOf w)))
  | 6 => .ok (.dlyu (opOf w))
  | 7 => .ok (.dlym (opOf w))
  | 8 => decodeSubZero (subOf w) (decodeBare .trst (argOf w))
  | 9 => decodeSubZero (subOf w) (decodeBare .stby (argOf w))
  | _ => .error .reservedTag

/-- The word with the given fields (R80). -/
def wordOf (tag sub : BitVec 4) (arg : Byte) : Word := (tag ++ sub ++ arg : BitVec (4 + 4 + 8))

/-- The word with the given tag and 12-bit operand (R80). -/
def wordOfOp (tag : BitVec 4) (op : BitVec 12) : Word := (tag ++ op : BitVec (4 + 12))

/-- A level as an 8-bit operand `0000000v` (R82). -/
def levelArg (v : Bool) : Byte := (BitVec.ofBool v).setWidth 8

/-- The word of a step (R82). -/
def encode : Instr → Word
  | .wlvAck v => wordOf 1 0 (levelArg v)
  | .wlvPwr v => wordOf 1 1 (levelArg v)
  | .wfe => wordOf 1 2 0
  | .wre => wordOf 1 3 0
  | .wsl d => wordOf 1 4 d
  | .wsh d => wordOf 1 5 d
  | .rdyl => wordOf 2 0 0
  | .rdyh => wordOf 2 1 0
  | .rdyt => wordOf 2 2 0
  | .rdf n => wordOf 3 0 n
  | .wrf k => wordOf 4 0 (k.setWidth 8)
  | .rawb v => wordOf 5 0 v
  | .dlyu c => wordOfOp 6 c
  | .dlym c => wordOfOp 7 c
  | .trst => wordOf 8 0 0
  | .stby => wordOf 9 0 0

/-- One row of the opcode map: a word is of the row iff `w & mask = match` (R82). -/
structure OpcodeRow where
  mask  : Word
  value : Word
  deriving DecidableEq, Repr

/-- The word lies in the row (R82). -/
def OpcodeRow.has (r : OpcodeRow) (w : Word) : Bool := w &&& r.mask == r.value

/-- The row of R82 a step belongs to. -/
def Instr.row : Instr → OpcodeRow
  | .wlvAck _ => ⟨0xFFFE, 0x1000⟩
  | .wlvPwr _ => ⟨0xFFFE, 0x1100⟩
  | .wfe => ⟨0xFFFF, 0x1200⟩
  | .wre => ⟨0xFFFF, 0x1300⟩
  | .wsl _ => ⟨0xFF00, 0x1400⟩
  | .wsh _ => ⟨0xFF00, 0x1500⟩
  | .rdyl => ⟨0xFFFF, 0x2000⟩
  | .rdyh => ⟨0xFFFF, 0x2100⟩
  | .rdyt => ⟨0xFFFF, 0x2200⟩
  | .rdf _ => ⟨0xFF00, 0x3000⟩
  | .wrf _ => ⟨0xFFF0, 0x4000⟩
  | .rawb _ => ⟨0xFF00, 0x5000⟩
  | .dlyu _ => ⟨0xF000, 0x6000⟩
  | .dlym _ => ⟨0xF000, 0x7000⟩
  | .trst => ⟨0xFFFF, 0x8000⟩
  | .stby => ⟨0xFFFF, 0x9000⟩

/-- The opcode map: the sixteen rows of R82. -/
def opcodeTable : List OpcodeRow :=
  [⟨0xFFFE, 0x1000⟩, ⟨0xFFFE, 0x1100⟩, ⟨0xFFFF, 0x1200⟩, ⟨0xFFFF, 0x1300⟩,
   ⟨0xFF00, 0x1400⟩, ⟨0xFF00, 0x1500⟩, ⟨0xFFFF, 0x2000⟩, ⟨0xFFFF, 0x2100⟩,
   ⟨0xFFFF, 0x2200⟩, ⟨0xFF00, 0x3000⟩, ⟨0xFFF0, 0x4000⟩, ⟨0xFF00, 0x5000⟩,
   ⟨0xF000, 0x6000⟩, ⟨0xF000, 0x7000⟩, ⟨0xFFFF, 0x8000⟩, ⟨0xFFFF, 0x9000⟩]

/-- The step an opcode-table word stands for. There is one length, 16 bits, and no byte order: a word is fetched whole
(R68, R80); a longer or larger number is no word of this machine (log 21). -/
def decodeTableWord (nbits w : Nat) : Option Instr :=
  if nbits ≤ 16 ∧ w < 2 ^ 16 then (decode (BitVec.ofNat 16 w)).toOption else none

end Sys2Proof
end

