-- ==== Sys2Proof/Config.lean ====
section
/-! DEFINITION. What an implementation fixes (the open parameters of R6), the steps the agents can take (R3, R36),
and the free values: constants without a body, of which no proof can know a value. -/

namespace Sys2Proof

/-- What PEER does to `DAT` at the instant of a `ClkRise` (R37): not driving, or driving a level. -/
inductive Drive where
  | z
  | level (b : Bool)
  deriving DecidableEq, Repr

/-- One atomic step of one agent (R3, R10), or a change of an input pin by its owner (R36, R240). -/
inductive Event where
  /-- SEQ takes a step (R160). -/
  | seq
  /-- The `TICK` input: TMR takes a step (R105). -/
  | tick
  /-- PEER takes `CLK` from high to low (R121). -/
  | clkFall
  /-- PEER takes `CLK` from low to high while doing `drv` to `DAT` (R122). -/
  | clkRise (drv : Drive)
  /-- PEER sets the level of `ACK`. -/
  | ack (level : Bool)
  /-- PEER sets the level of `PWR`. -/
  | pwr (level : Bool)
  /-- The platform asserts (`true`) or releases (`false`) `RST` (R210). -/
  | rst (level : Bool)
  deriving DecidableEq, Repr, Inhabited

/-- The flag-clear sentinel: any byte but zero (R6, R230; U3: zero is refused, here by the type). -/
abbrev Sentinel := { v : Byte // v ≠ 0 }

/-- One entry of the payload directory: the index in `PROM` of the first byte and the number of bytes (R61). -/
structure PayloadEntry where
  base : Byte
  len  : Byte
  deriving DecidableEq, Repr

/-- The configuration: "in place before `RST` is released and never changes afterwards" (R6, R212a). -/
structure Config where
  /-- `SCRIPT[0..255]`, the script ROM (R60). -/
  script  : Memory Word
  /-- `PDIR[0..15]`, the payload directory (R61). -/
  pdir    : Memory PayloadEntry
  /-- `PROM[0..255]`, the payload bytes (R62). -/
  prom    : List Host.Cell
  /-- `SENT` (R6). -/
  sent    : Sentinel
  /-- `T_SETTLE`, microseconds, 0 to 255 (R6). -/
  tSettle : Byte
  deriving DecidableEq, Repr

/-- FREE VALUE: the n-th byte drawn by nobody (R7 `draw`). -/
opaque Config.freeByte : Nat → Byte

/-- FREE VALUE: the n-th bit drawn by nobody (R7 `draw`). -/
opaque Config.freeBit : Nat → Bool

/-- FREE VALUE: the agent whose step comes n-th, where nothing else says so (R10, U32). -/
opaque Config.freeEvent : Nat → Event

/-- OPEN parameter behind `SENT`: its value less one, so that every value 1 to 255 is admitted (R6, D8). -/
opaque Config.sentIndex : Fin 255

/-- OPEN parameter `T_SETTLE` of the machine right after reset (R6, D16). -/
opaque Config.settle : Byte

/-- `SENT` of the machine right after reset: some non-zero byte (R6, D8). -/
def Config.openSentinel : Sentinel :=
  ⟨BitVec.ofNat 8 (Config.sentIndex.val + 1), by
    have h := Config.sentIndex.isLt
    intro hz
    have hn : (Config.sentIndex.val + 1) % 256 = 0 := congrArg BitVec.toNat hz
    omega⟩

end Sys2Proof
end

