-- ==== Sys2Proof/Machine/State.lean ====
section
/-! DEFINITION. The state of CORE as plain data (R20), the primitives its micro-state is a list of (R8), the fault causes
(R28), the state after reset (R38), and the two reasons a Lean step can stop. -/

namespace Sys2Proof.Machine

/-- The lines a `WAITL` can sample (R102). -/
inductive Line where
  | ack
  | pwr
  deriving DecidableEq, Repr

/-- A value source (R8). -/
inductive Src where
  /-- `IMM v`: the 8-bit constant. -/
  | imm (v : Byte)
  /-- `BYTE`: the byte latch. -/
  | byte
  /-- `CSUMR`: the register `CSUM`. -/
  | csumr
  /-- `PAY k i`: byte `i` of payload `k`. -/
  | pay (k : BitVec 4) (i : Byte)
  /-- `SENT`: the flag-clear sentinel. -/
  | sent
  deriving DecidableEq, Repr

/-- The sixteen primitives of SEQ (R8). -/
inductive Prim where
  | setrdy (b : Bool)
  | waitl (l : Line) (v : Bool)
  | ldt (t : Micros)
  | waitt
  | setdir (d : Bool)
  | clrtc
  | waittc
  | getb
  | putb (src : Src)
  | toff
  | ton
  | clrsum
  | acc (src : Src)
  | stb (i : Byte)
  | next
  | halt
  deriving DecidableEq, Repr

/-- The faults CORE can raise (R191). -/
inductive FaultCode where
  | illegalStep
  | framePrecondition
  | scriptOverrun
  | payloadIndex
  deriving DecidableEq, Repr

/-- The number of entries of `RXBUF` (R6 `RXBUF_N`). -/
abbrev rxbufSize : Nat := 255

/-- The inspection ports, read from outside (R12, R204). -/
inductive Port where
  | pc
  | fault
  | fpc
  /-- `RXBUF[i]`, `0 <= i <= 254` (R63). -/
  | rxbuf (i : Fin rxbufSize)
  deriving DecidableEq, Repr

/-- A register of which some bits may be unspecified: "each read of it before the next write yields `draw`" (R7).
`unspec` marks those bits; where a bit is marked, `bits` holds 0 there, which no read shows (log 3, log 19). -/
structure Reg (w : Nat) where
  bits   : BitVec w
  unspec : BitVec w
  deriving DecidableEq, Repr

/-- The complete state of CORE (R20), its configuration (R6), the levels of its input pins (R36), and the model's own
bookkeeping of events and free values (log 1, 2, 11). -/
structure State where
  /-- `SR`, the data register (R21). -/
  sr     : Reg 8
  /-- `DO`, the output latch (R32). -/
  dout   : Reg 1
  /-- `BITCNT`, the bit counter (R33). -/
  bitcnt : BitVec 3
  /-- `TC`, the transfer-complete flag (R27). -/
  tc     : Bool
  /-- `TCFG.EN`; bits 7:1 of `TCFG` are hardwired (R29). -/
  en     : Bool
  /-- `DAT_OE`, the direction of the data pin: `true` is output (R30). -/
  datOe  : Bool
  /-- `RDY`, the local ready line (R31). -/
  rdy    : Bool
  /-- `DLY`, microseconds still to wait (R34). -/
  dly    : Micros
  /-- `BYTE`, the byte latch (R22). -/
  byte   : Reg 8
  /-- `CSUM`, the checksum accumulator (R23). -/
  csum   : Byte
  /-- `RXBUF[0..254]`, 255 entries of 8 bits (R35, R63): the entries a `STB` has written since reset; each of the others is
  unspecified, and every read of it is a draw (`State.rxEntry`, `State.readPort`). -/
  rxbuf  : List Host.Cell
  /-- `PC`, the index of the step being executed (R25). -/
  pc     : Byte
  /-- `TODO`, the primitives that remain of the step at `PC` (R26). -/
  todo   : List Prim
  /-- `FAULT`, the sticky cause code, 0 for none (R28). -/
  fault  : BitVec 3
  /-- `FPC`, the value of `PC` when the fault was recorded (R28). -/
  fpc    : Reg 8
  /-- The configuration, constant (R6, R212a). -/
  cfg    : Config
  /-- Level of the pin `PWR` (R36). -/
  pwr    : Bool
  /-- Level of the pin `ACK` (R36). -/
  ack    : Bool
  /-- Level of the pin `CLK` (R36). -/
  clk    : Bool
  /-- `RST` is asserted (R210). -/
  rst    : Bool
  /-- The level PEER sampled on `DAT` at the last `ClkRise` (R37, R122). -/
  peerBit : Bool
  /-- The model's own: the events that come next; where it is empty the next event is a free value (R10). -/
  queue  : List Event
  /-- The model's own: how many free values have been passed (R7). -/
  draws  : Nat
  deriving DecidableEq, Repr

/-- Why a Lean step stops. The faults of CORE are not among these: `TRAP` is a next state (R193). -/
inductive Fault where
  /-- Raised by the primitive `STB i` for an index `RXBUF` does not have (R74: `0 <= i <= 254`). SAFE: the machine stops
  where the spec gives no effect, and no expansion of a step holds such a primitive. -/
  | outsideSpace
  deriving DecidableEq, Repr

/-- Why an instruction has no meaning. -/
inductive Refusal where
  /-- Raised by an arm of `exec` for a row of the opcode table that has no meaning yet; SAFE. No arm raises it. -/
  | notModelled (mnemonic : String)
  deriving DecidableEq, Repr

/-- The configuration of the machine right after reset: nothing listed in the ROMs, the open parameters open (R6). -/
def State.resetCfg : Config :=
  { script := [], pdir := [], prom := [], sent := Config.openSentinel, tSettle := Config.settle }

/-- The machine when reset ends (R38, R211, R212e). -/
def State.reset : State :=
  { sr := ⟨0, 0xFF⟩, dout := ⟨0, 0⟩, bitcnt := 0, tc := false, en := true, datOe := false
    rdy := false, dly := 0, byte := ⟨0, 0xFF⟩, csum := 0, rxbuf := [], pc := 0, todo := []
    fault := 0, fpc := ⟨0, 0xFF⟩, cfg := State.resetCfg
    pwr := false, ack := false, clk := true, rst := false, peerBit := false
    queue := [], draws := 0 }

end Sys2Proof.Machine
end

