-- ==== Sys2Proof/Machine/Ops.lean ====
section
/-! DEFINITION. The named operations over the spaces and registers: sparse tables in one canonical form, registers with
unspecified bits, the ROM reads and the `RXBUF` write of R74, loading a step's expansion (R160), `TRAP` (R193) and reset
from anywhere (R210), the only way out of a fault (R197). -/

namespace Sys2Proof

/-! ## Sparse tables -/

/-- The element listed at an index, if any. -/
def Memory.lookup {α : Type} (m : Memory α) (a : Nat) : Option α :=
  match m with
  | [] => none
  | (b, u) :: rest => if b = a then some u else Memory.lookup rest a

/-- List `v` at `a`, keeping the indices rising. -/
def Memory.insert {α : Type} (m : Memory α) (a : Nat) (v : α) : Memory α :=
  match m with
  | [] => [(a, v)]
  | (b, u) :: rest =>
    if a < b then (a, v) :: (b, u) :: rest
    else if a = b then (a, v) :: rest
    else (b, u) :: Memory.insert rest a v

/-- List nothing at `a`. -/
def Memory.erase {α : Type} (m : Memory α) (a : Nat) : Memory α :=
  m.filter fun cell => cell.1 ≠ a

/-- Make index `a` of a table read as `v`, where an index not listed reads as `dflt`. -/
def Memory.put {α : Type} [DecidableEq α] (dflt : α) (m : Memory α) (a : Nat) (v : α) : Memory α :=
  if v = dflt then Memory.erase m a else Memory.insert m a v

/-- The canonical form of a table with indices below `size` in which every listed element satisfies `listed`. -/
abbrev Memory.wf {α : Type} (size : Nat) (listed : α → Bool) (m : Memory α) : Prop :=
  m.Pairwise (fun p q => p.1 < q.1) ∧ ∀ cell ∈ m, cell.1 < size ∧ listed cell.2 = true

namespace Machine

/-! ## Registers with unspecified bits (R7) -/

/-- A register that holds a known value. -/
def Reg.known {w : Nat} (v : BitVec w) : Reg w := ⟨v, 0⟩

/-- A register whose content is unspecified. -/
def Reg.unspecified {w : Nat} : Reg w := ⟨0, BitVec.allOnes w⟩

/-- Reading a register: an unspecified bit yields the bit of the draw `d` (R7, R39). A register without such bits is read
without looking at the draw, so that its reading can be evaluated. -/
def Reg.read {w : Nat} (r : Reg w) (d : BitVec w) : BitVec w :=
  if r.unspec = 0 then r.bits else (r.bits &&& ~~~r.unspec) ||| (d &&& r.unspec)

/-- `{ b, SR[7:1] }`: shift right by one, `b` enters at bit 7 (R122); unspecified bits move along (log 19). -/
def Reg.shiftIn (r : Reg 8) (b : Bool) : Reg 8 :=
  ⟨BitVec.cons b (r.bits.extractLsb' 1 7), BitVec.cons false (r.unspec.extractLsb' 1 7)⟩

/-- A marked bit holds 0, so that equal contents are equal data. -/
abbrev Reg.wf {w : Nat} (r : Reg w) : Prop := r.bits &&& r.unspec = 0

/-! ## The spaces (R74) -/

/-- What an index of `SCRIPT` that is not listed reads as: "the all-zero word of an unprogrammed entry" (R60). -/
def erasedWord : Word := 0

/-- What an index of `PDIR` that is not listed reads as: "An unused entry holds `(0, 0)`" (R61). -/
def unusedEntry : PayloadEntry := ⟨0, 0⟩

/-- What an index of `PROM` that is not listed reads as (log 6). -/
def erasedByte : Byte := 0

/-- `MemRead(SCRIPT, PC, 1)` (R74, R160). -/
def State.scriptWord (s : State) : Word := (Memory.lookup s.cfg.script s.pc.toNat).getD erasedWord

/-- `MemRead(PDIR, k, 1)` (R74). -/
def State.payloadEntry (s : State) (k : BitVec 4) : PayloadEntry :=
  (Memory.lookup s.cfg.pdir k.toNat).getD unusedEntry

/-- `MemRead(PROM, a, 1)` (R74). -/
def State.promByte (s : State) (a : Byte) : Byte := (Memory.lookup s.cfg.prom a.toNat).getD erasedByte

/-- What an entry of `RXBUF` that is not listed holds: an unspecified byte, as `SR` does after reset (R35, R7). -/
def unwrittenEntry : Reg 8 := Reg.unspecified

/-- `RXBUF[i]`, `0 <= i <= 254` (R35, R63). -/
def State.rxEntry (s : State) (i : Fin rxbufSize) : Reg 8 :=
  match Memory.lookup s.rxbuf i.val with
  | some v => Reg.known v
  | none => unwrittenEntry

/-- `MemWrite(RXBUF, i, 1, v)` (R74). -/
def State.rxWrite (s : State) (i v : Byte) : State :=
  { s with rxbuf := Memory.insert s.rxbuf i.toNat v }

/-- `TCFG` as R29 lays it out: bit 7 zero, `LEN = 1000b`, `SLV = 1`, `LSBF = 1`, `EN`. -/
def State.tcfg (s : State) : Byte :=
  BitVec.cons false ((0b1000 : BitVec 4) ++ (1 : BitVec 1) ++ (1 : BitVec 1) ++ BitVec.ofBool s.en)

/-! ## The sequencer's micro-state -/

/-- The fetch of a legal step: `TODO <- expand(w) ++ [NEXT]` (R160). -/
def State.load (s : State) (expansion : List Prim) : State :=
  { s with todo := expansion ++ [.next] }

/-- The cause code `FAULT` records (R28). -/
def FaultCode.code : FaultCode → BitVec 3
  | .illegalStep => 1
  | .framePrecondition => 2
  | .scriptOverrun => 3
  | .payloadIndex => 4

/-- `raise Fault(code)`, the `TRAP`: record the cause and `PC`, release the data line, empty `TODO` (R193). -/
def State.raise (s : State) (c : FaultCode) : State :=
  { s with fault := c.code, fpc := Reg.known s.pc, datOe := false, todo := [] }

/-- Asserting `RST`: every piece of CORE's state takes its reset value from anywhere (R210); the configuration, the pins
and the model's own fields are not CORE's and stay. -/
def State.enterReset (s : State) : State :=
  { State.reset with
    cfg := s.cfg, pwr := s.pwr, ack := s.ack, clk := s.clk, rst := true
    peerBit := s.peerBit, queue := s.queue, draws := s.draws }

/-- Releasing `RST`: SEQ may take its first step (R210). -/
def State.leaveReset (s : State) : State := { s with rst := false }

/-- SEQ may step: `RST` is not asserted and `FAULT = 0` (R160). -/
def State.seqEnabled (s : State) : Bool := !s.rst && s.fault == 0

/-! ## Free values (R7) -/

/-- The byte drawn by this step. -/
def State.drawByte (s : State) : Byte := Config.freeByte s.draws

/-- The `n`-th of the bits drawn by this step. -/
def State.drawBit (s : State) (n : Nat) : Bool := Config.freeBit (s.draws + n)

/-- Pass `n` free values, so that the next draw is an independent one. -/
def State.passDraws (s : State) (n : Nat) : State := { s with draws := s.draws + n }

/-! ## The inspection ports (R12) -/

/-- Read an inspection port from outside: the value shown, and the state with the draw passed, so that each read of an
unspecified entry is an independent draw (R7, U22). It has no effect on behaviour (R204). -/
def State.readPort (s : State) : Port → Byte × State
  | .pc => (s.pc, s)
  | .fault => (s.fault.setWidth 8, s)
  | .fpc => (s.fpc.read s.drawByte, s.passDraws 1)
  | .rxbuf i => ((s.rxEntry i).read s.drawByte, s.passDraws 1)

end Machine

end Sys2Proof
end

