-- ==== Sys2Proof/Machine/Operands.lean ====
section
/-! DEFINITION. Operands: value sources (R8), line samples (R102), counts (R86, R177), the level on `DAT` (R37). -/

namespace Sys2Proof.Machine

/-- The index in `PROM` of byte `i` of payload `k`: `(PBASE[k] + i) mod 256` (R8, R62). -/
def State.payloadAddress (s : State) (k : BitVec 4) (i : Byte) : Byte := (s.payloadEntry k).base + i

/-- `val(s)`, the 8-bit value of a source when the primitive executes (R8); an unspecified `BYTE` yields a draw (R39). -/
def State.val (s : State) : Src → Byte
  | .imm v => v
  | .byte => s.byte.read s.drawByte
  | .csumr => s.csum
  | .pay k i => s.promByte (s.payloadAddress k i)
  | .sent => s.cfg.sent.val

/-- The instantaneous level of a line (R102). -/
def State.level (s : State) : Line → Bool
  | .ack => s.ack
  | .pwr => s.pwr

/-- An 8-bit settle delay as microseconds (R83). -/
def settleMicros (d : Byte) : Micros := d.setWidth 22

/-- The count of `DLYU`: microseconds, zero-extended (R86, R176). -/
def microsCount (c : BitVec 12) : Micros := c.setWidth 22

/-- The count of `DLYM`: `1000 * c` microseconds (R81, R177). -/
def millisCount (c : BitVec 12) : Micros := 1000 * c.setWidth 22

/-- The directory entry runs past the end of `PROM`: `PBASE[k] + PLEN[k] > 256` (R191). -/
def payloadRunsPast (e : PayloadEntry) : Bool := e.base.toNat + e.len.toNat > 256

/-- `SR` as one step reads it (R39). -/
def State.srNow (s : State) : Byte := s.sr.read s.drawByte

/-- The level CORE puts on `DAT` while it drives the line: `DO`, a draw while `DO` is unspecified (R32). -/
def State.doutNow (s : State) : Bool := (s.dout.read (BitVec.ofBool (s.drawBit 0))).getLsbD 0

/-- Nobody fixes the level of `DAT`: it floats, or the two sides drive opposite levels (R37). -/
def State.datOpen (s : State) : Drive → Bool
  | .z => !s.datOe
  | .level b => s.datOe && b != s.doutNow

/-- The level on `DAT` where somebody fixes it (R37). -/
def State.datFixed (s : State) : Drive → Bool
  | .z => s.doutNow
  | .level b => b

/-- `Pad(drv)`, the bit CORE shifts in (R37). -/
def State.pad (s : State) (drv : Drive) : Bool :=
  if s.datOpen drv then s.drawBit 1 else s.datFixed drv

/-- The level PEER samples at the same instant: the same level, or an independent draw (R37, U24). -/
def State.peerSample (s : State) (drv : Drive) : Bool :=
  if s.datOpen drv then s.drawBit 2 else s.datFixed drv

end Sys2Proof.Machine
end

