-- ==== Sys2Proof/Machine/Operations.lean ====
section
/-! DEFINITION. The operations of SignalLine, ByteTransport and FramedChannel as the lists of primitives they expand to
(R106 to R111, R130, R131, R145, R146). -/

namespace Sys2Proof.Machine

/-- `waitRisingEdge()`: low, then high (R106). -/
def waitRisingEdge : List Prim := [.waitl .ack false, .waitl .ack true]

/-- `waitFallingEdge()`: high, then low (R107). -/
def waitFallingEdge : List Prim := [.waitl .ack true, .waitl .ack false]

/-- `waitLevelLow(d)`: settle, then poll for low (R108). -/
def waitLevelLow (d : Byte) : List Prim := [.ldt (settleMicros d), .waitt, .waitl .ack false]

/-- `waitLevelHigh(d)`: settle, then poll for high (R109). -/
def waitLevelHigh (d : Byte) : List Prim := [.ldt (settleMicros d), .waitt, .waitl .ack true]

/-- `waitLevel(l, v)`: a plain poll (R110). -/
def waitLevel (l : Line) (v : Bool) : List Prim := [.waitl l v]

/-- `toggleReady()`: low ("working"), then high ("ready") (R111). -/
def toggleReady : List Prim := [.setrdy false, .setrdy true]

/-- `delayMicroseconds(t)` (R104). -/
def delayMicroseconds (t : Micros) : List Prim := [.ldt t, .waitt]

/-- `readByte()` (R130). -/
def readByte : List Prim := [.setdir false, .clrtc, .waittc, .getb]

/-- `writeByte(s)` (R131). -/
def writeByte (src : Src) : List Prim :=
  [.putb src, .setdir true, .waittc, .setdir false, .putb .sent]

/-- One of the first `n - 1` bytes of a read frame, byte `i` (R145). -/
def readLoopByte (i : Nat) : List Prim :=
  readByte ++ toggleReady ++ [.acc .byte, .stb (BitVec.ofNat 8 i)]

/-- `count` bytes of the read loop from byte `i` on (R145). -/
def readLoop (count i : Nat) : List Prim :=
  match count with
  | 0 => []
  | c + 1 => readLoopByte i ++ readLoop c (i + 1)

/-- The final byte of a read frame, number `i`: ready goes low and is not re-raised (R145). -/
def readLastByte (i : Nat) : List Prim :=
  readByte ++ [.setrdy false, .acc .byte, .stb (BitVec.ofNat 8 i)]

/-- The end of a read frame: falling edge, raise ready, rising edge, transmit the checksum (R145). -/
def readReply : List Prim :=
  waitFallingEdge ++ [.setrdy true] ++ waitRisingEdge ++ writeByte .csumr

/-- `readFrame(n)`, `1 <= n <= 255` (R145, R149). -/
def readFrame (n : Nat) : List Prim :=
  [.clrsum] ++ readLoop (n - 1) 0 ++ readLastByte (n - 1) ++ readReply

/-- The handshake cycle before every byte of a written frame but the first (R146, R148). -/
def settleCycle (t : Byte) : List Prim := waitLevelLow t ++ toggleReady

/-- Payload byte `i` of a written frame (R146). -/
def writeLoopByte (t : Byte) (k : BitVec 4) (i : Nat) : List Prim :=
  settleCycle t ++ writeByte (.pay k (BitVec.ofNat 8 i)) ++ [.acc (.pay k (BitVec.ofNat 8 i))]

/-- `count` payload bytes of a written frame from byte `i` on (R146). -/
def writeLoop (t : Byte) (k : BitVec 4) (count i : Nat) : List Prim :=
  match count with
  | 0 => []
  | c + 1 => writeLoopByte t k i ++ writeLoop t k c (i + 1)

/-- `writeFrame(n, payload k)` with settle delay `t` (R146, R152). -/
def writeFrame (t : Byte) (k : BitVec 4) (n : Byte) : List Prim :=
  waitFallingEdge ++ toggleReady ++ writeByte (.imm n) ++ [.clrsum] ++ writeLoop t k n.toNat 0 ++
    settleCycle t ++ writeByte .csumr

end Sys2Proof.Machine
end

