-- ==== Sys2Proof/Machine/Delay.lean ====
section
/-! DEFINITION. The delay steps (R176, R177). -/

namespace Sys2Proof.Machine

/-- `DLYU c` (R176). -/
def execDlyu (c : BitVec 12) (s : State) : Host.Outcome State Fault Refusal :=
  .next (s.load (delayMicroseconds (microsCount c)))

/-- `DLYM c` (R177). -/
def execDlym (c : BitVec 12) (s : State) : Host.Outcome State Fault Refusal :=
  .next (s.load (delayMicroseconds (millisCount c)))

end Sys2Proof.Machine
end

