-- ==== Sys2Proof/Machine/Frame.lean ====
section
/-! DEFINITION. The frame and byte steps, with the fetch-time checks that raise a fault before any effect (R172 to R174,
R151, R191). -/

namespace Sys2Proof.Machine

/-- `RDF n`: `FramePrecondition` iff `n = 0`, else `readFrame(n)` (R172, R151). -/
def execRdf (n : Byte) (s : State) : Host.Outcome State Fault Refusal :=
  if n = 0 then .next (s.raise .framePrecondition)
  else .next (s.load (readFrame n.toNat))

/-- `WRF k`: `PayloadIndex` iff the directory entry runs past the end of `PROM`, else `writeFrame` of payload `k`
(R173, R191). -/
def execWrf (k : BitVec 4) (s : State) : Host.Outcome State Fault Refusal :=
  if payloadRunsPast (s.payloadEntry k) then .next (s.raise .payloadIndex)
  else .next (s.load (writeFrame s.cfg.tSettle k (s.payloadEntry k).len))

/-- `RAWB v`: one byte outside any frame (R174). -/
def execRawb (v : Byte) (s : State) : Host.Outcome State Fault Refusal :=
  .next (s.load (writeByte (.imm v)))

end Sys2Proof.Machine
end

