-- ==== Sys2Proof/Machine/Ready.lean ====
section
/-! DEFINITION. The ready-line steps (R171, R175, R184). -/

namespace Sys2Proof.Machine

/-- `RDYL` (R171). -/
def execRdyl (s : State) : Host.Outcome State Fault Refusal :=
  .next (s.load [.setrdy false])

/-- `RDYH` (R175). -/
def execRdyh (s : State) : Host.Outcome State Fault Refusal :=
  .next (s.load [.setrdy true])

/-- `RDYT` (R184). -/
def execRdyt (s : State) : Host.Outcome State Fault Refusal :=
  .next (s.load toggleReady)

end Sys2Proof.Machine
end

