-- ==== Sys2Proof/Machine/System.lean ====
section
/-! DEFINITION. The system steps: transport reset and Standby (R178, R179). -/

namespace Sys2Proof.Machine

/-- `TRST` (R178). -/
def execTrst (s : State) : Host.Outcome State Fault Refusal :=
  .next (s.load [.toff, .ton])

/-- `STBY` (R179). -/
def execStby (s : State) : Host.Outcome State Fault Refusal :=
  .next (s.load [.halt])

end Sys2Proof.Machine
end

