-- ==== Sys2Proof/Machine/Wait.lean ====
section
/-! DEFINITION. The Wait steps (R165 to R170). The meaning of a step is what its fetch does: `TODO` takes the step's
expansion followed by `NEXT` (R160, R161); the primitives then run one a SEQ step. -/

namespace Sys2Proof.Machine

/-- `WLV ACK, v` (R165). -/
def execWlvAck (v : Bool) (s : State) : Host.Outcome State Fault Refusal :=
  .next (s.load (waitLevel .ack v))

/-- `WLV PWR, v` (R166). -/
def execWlvPwr (v : Bool) (s : State) : Host.Outcome State Fault Refusal :=
  .next (s.load (waitLevel .pwr v))

/-- `WFE` (R167). -/
def execWfe (s : State) : Host.Outcome State Fault Refusal :=
  .next (s.load waitFallingEdge)

/-- `WRE` (R168). -/
def execWre (s : State) : Host.Outcome State Fault Refusal :=
  .next (s.load waitRisingEdge)

/-- `WSL d` (R169). -/
def execWsl (d : Byte) (s : State) : Host.Outcome State Fault Refusal :=
  .next (s.load (waitLevelLow d))

/-- `WSH d` (R170). -/
def execWsh (d : Byte) (s : State) : Host.Outcome State Fault Refusal :=
  .next (s.load (waitLevelHigh d))

end Sys2Proof.Machine
end

