-- ==== Sys2Proof/Machine/Dispatch.lean ====
section
/-! DEFINITION. The meaning of every step, one arm per constructor of Instr. -/

namespace Sys2Proof.Machine

def exec (i : Instr) (s : State) : Host.Outcome State Fault Refusal :=
  match i with
  | .wlvAck v => Sys2Proof.Machine.execWlvAck v s
  | .wlvPwr v => Sys2Proof.Machine.execWlvPwr v s
  | .wfe => Sys2Proof.Machine.execWfe s
  | .wre => Sys2Proof.Machine.execWre s
  | .wsl d => Sys2Proof.Machine.execWsl d s
  | .wsh d => Sys2Proof.Machine.execWsh d s
  | .rdyl => Sys2Proof.Machine.execRdyl s
  | .rdyh => Sys2Proof.Machine.execRdyh s
  | .rdyt => Sys2Proof.Machine.execRdyt s
  | .rdf n => Sys2Proof.Machine.execRdf n s
  | .wrf k => Sys2Proof.Machine.execWrf k s
  | .rawb v => Sys2Proof.Machine.execRawb v s
  | .dlyu c => Sys2Proof.Machine.execDlyu c s
  | .dlym c => Sys2Proof.Machine.execDlym c s
  | .trst => Sys2Proof.Machine.execTrst s
  | .stby => Sys2Proof.Machine.execStby s

end Sys2Proof.Machine
end

