-- ==== Sys2Proof/Machine/Flags.lean ====
section
/-! DEFINITION. The one flag, `TC` (R27), and the bit counter that sets it (R33). -/

namespace Sys2Proof.Machine

/-- `TC` after a write of `v` to the data register: a non-zero write clears it; a zero write leaves `draw {TC, 0}`, so it
never sets it (R127). -/
def tcAfterWrite (v : Byte) (tc draw : Bool) : Bool := if v = 0 then tc && draw else false

/-- `BITCNT` after an enabled `ClkRise`: modulo 8 (R33, R122). -/
def bitcntAfterRise (n : BitVec 3) : BitVec 3 := if n = 7 then 0 else n + 1

/-- `TC` after an enabled `ClkRise`: set by the rise that completes a group of eight (R27, R122). -/
def tcAfterRise (n : BitVec 3) (tc : Bool) : Bool := if n = 7 then true else tc

end Sys2Proof.Machine
end

