-- ==== Sys2Proof/Machine/Engine.lean ====
section
/-! DEFINITION. The agents beside SEQ: ENG at the edges of `CLK` (R121, R122), TMR at a `Tick` (R105), and the owners of
the input pins (R36, R210, R240). While `RST` is asserted ENG and TMR do not step (R210). -/

namespace Sys2Proof.Machine

/-- ENG steps at an edge: the transport is enabled and CORE is not in reset (R120, R210). -/
def State.engEnabled (s : State) : Bool := s.en && !s.rst

/-- ENG's step at a `ClkFall`: `DO <- SR[0]` (R121). -/
def State.latchOut (s : State) : State :=
  { s with dout := Reg.known (BitVec.ofBool (s.srNow.getLsbD 0)) }.passDraws 1

/-- ENG's step at a `ClkRise(drv)`: shift `Pad(drv)` in and count (R122). -/
def State.shiftIn (s : State) (drv : Drive) : State :=
  { s with
    sr := s.sr.shiftIn (s.pad drv)
    bitcnt := bitcntAfterRise s.bitcnt
    tc := tcAfterRise s.bitcnt s.tc }

/-- PEER takes `CLK` low; a line that is low already has no falling edge (R121, log 9). -/
def clkFall (s : State) : State :=
  if s.clk then
    let edge := { s with clk := false }
    if s.engEnabled then edge.latchOut else edge
  else s

/-- PEER takes `CLK` high and samples `DAT`; a line that is high already has no rising edge (R122, log 9, log 11). -/
def clkRise (drv : Drive) (s : State) : State :=
  if s.clk then s
  else
    let edge := { s with clk := true, peerBit := s.peerSample drv }
    (if s.engEnabled then edge.shiftIn drv else edge).passDraws 3

/-- TMR's step: `if DLY > 0 then DLY <- DLY - 1` (R105). -/
def tick (s : State) : State :=
  if s.rst then s else if s.dly = 0 then s else { s with dly := s.dly - 1 }

/-- PEER sets the level of `ACK` (R36, R240). -/
def setAck (level : Bool) (s : State) : State := { s with ack := level }

/-- PEER sets the level of `PWR` (R36, R240). -/
def setPwr (level : Bool) (s : State) : State := { s with pwr := level }

/-- The platform asserts or releases `RST` (R210). -/
def setRst (level : Bool) (s : State) : State :=
  if level then s.enterReset else s.leaveReset

end Sys2Proof.Machine
end

