-- ==== Sys2Proof/Machine/Primitives.lean ====
section
/-! DEFINITION. The sixteen primitives of SEQ, one definition each (R8), and what one SEQ step does with the primitive at
the head of `TODO` (R9, R160). -/

namespace Sys2Proof.Machine

/-- What a primitive does when SEQ tries it (R9): it completes, it holds, it raises a fault of CORE, or (in a state no run
reaches) it names an index its space does not have. -/
inductive Tried where
  | advance (s : State)
  | hold
  | trap (c : FaultCode)
  | outside
  deriving DecidableEq, Repr

/-- A blocking primitive completes, changing nothing, iff its condition holds (R9). -/
def completeIff (cond : Bool) (s : State) : Tried := if cond then .advance s else .hold

/-- `SETRDY b` (R101). -/
def doSetrdy (b : Bool) (s : State) : Tried := .advance { s with rdy := b }

/-- `WAITL l v` (R102). -/
def doWaitl (l : Line) (v : Bool) (s : State) : Tried := completeIff (s.level l == v) s

/-- `LDT t` (R103). -/
def doLdt (t : Micros) (s : State) : Tried := .advance { s with dly := t }

/-- `WAITT` (R104). -/
def doWaitt (s : State) : Tried := completeIff (s.dly == 0) s

/-- `SETDIR d` (R123). -/
def doSetdir (d : Bool) (s : State) : Tried := .advance { s with datOe := d }

/-- `CLRTC`, a read of the data register whose value is discarded (R124). -/
def doClrtc (s : State) : Tried := .advance { s with tc := false }

/-- `WAITTC` (R125). -/
def doWaittc (s : State) : Tried := completeIff s.tc s

/-- `GETB`: `BYTE <- SR ; TC <- 0` (R126). -/
def doGetb (s : State) : Tried :=
  .advance ({ s with byte := Reg.known s.srNow, tc := false }.passDraws 1)

/-- `PUTB s`: `SR <- val(s)`, `TC` by the write rule (R127). -/
def doPutb (src : Src) (s : State) : Tried :=
  .advance ({ s with
    sr := Reg.known (s.val src)
    tc := tcAfterWrite (s.val src) s.tc (s.drawBit 0) }.passDraws 1)

/-- `TOFF`: disable and clear the engine; `SR` and `DO` become unspecified (R128). -/
def doToff (s : State) : Tried :=
  .advance { s with
    en := false, bitcnt := 0, tc := false, datOe := false
    sr := Reg.unspecified, dout := Reg.unspecified }

/-- `TON`: `TCFG.EN <- 1` (R129). -/
def doTon (s : State) : Tried := .advance { s with en := true }

/-- `CLRSUM` (R141). -/
def doClrsum (s : State) : Tried := .advance { s with csum := 0 }

/-- `ACC s`: `CSUM <- (CSUM + val(s)) mod 256`, the carry discarded (R142). -/
def doAcc (src : Src) (s : State) : Tried :=
  .advance ({ s with csum := s.csum + s.val src }.passDraws 1)

/-- `STB i`: `RXBUF[i] <- BYTE` (R143). -/
def doStb (i : Byte) (s : State) : Tried :=
  if i.toNat < rxbufSize then .advance ((s.rxWrite i (s.val .byte)).passDraws 1) else .outside

/-- `NEXT`: `PC <- PC + 1`, or `ScriptOverrun` at the last index (R162). -/
def doNext (s : State) : Tried :=
  if s.pc = 255 then .trap .scriptOverrun else .advance { s with pc := s.pc + 1 }

/-- `HALT` never completes (R163). -/
def doHalt : Tried := .hold

/-- A primitive by its defining rule (R8). -/
def perform (p : Prim) (s : State) : Tried :=
  match p with
  | .setrdy b => doSetrdy b s
  | .waitl l v => doWaitl l v s
  | .ldt t => doLdt t s
  | .waitt => doWaitt s
  | .setdir d => doSetdir d s
  | .clrtc => doClrtc s
  | .waittc => doWaittc s
  | .getb => doGetb s
  | .putb src => doPutb src s
  | .toff => doToff s
  | .ton => doTon s
  | .clrsum => doClrsum s
  | .acc src => doAcc src s
  | .stb i => doStb i s
  | .next => doNext s
  | .halt => doHalt

/-- The execute half of a SEQ step: try the head of `TODO`; if it completes it is removed, if it holds nothing changes
(R9, R160). -/
def execute (p : Prim) (rest : List Prim) (s : State) : Host.Outcome State Fault Refusal :=
  match perform p s with
  | .advance t => .next { t with todo := rest }
  | .hold => .next s
  | .trap c => .next (s.raise c)
  | .outside => .fault .outsideSpace

end Sys2Proof.Machine
end

