-- ==== Sys2Proof/Machine/Sequencer.lean ====
section
/-! DEFINITION. One step of SEQ (R160), one event of any agent (R3, R10), and which event comes next. -/

namespace Sys2Proof.Machine

/-- The fetch: decode `SCRIPT[PC]`, raise `IllegalStep` for a word of no row, else the step's meaning, which makes the
remaining checks (R160, R194). -/
def fetch (s : State) : Host.Outcome State Fault Refusal :=
  match decode s.scriptWord with
  | .error _ => .next (s.raise .illegalStep)
  | .ok i => exec i s

/-- A step of SEQ: none while `RST` is asserted or `FAULT != 0`; a fetch where `TODO` is empty, else the head of `TODO`
(R160, R197). -/
def seqStep (s : State) : Host.Outcome State Fault Refusal :=
  if s.seqEnabled then
    match s.todo with
    | [] => fetch s
    | p :: rest => execute p rest s
  else .next s

/-- One atomic event (R10). -/
def act (e : Event) (s : State) : Host.Outcome State Fault Refusal :=
  match e with
  | .seq => seqStep s
  | .tick => .next (tick s)
  | .clkFall => .next (clkFall s)
  | .clkRise drv => .next (clkRise drv s)
  | .ack level => .next (setAck level s)
  | .pwr level => .next (setPwr level s)
  | .rst level => .next (setRst level s)

/-- The event that comes next and the state it acts on: the head of `queue`, or a free value (R10, U32, log 1). -/
def nextEvent (s : State) : Event × State :=
  match s.queue with
  | e :: rest => (e, { s with queue := rest })
  | [] => (Config.freeEvent s.draws, s.passDraws 1)

/-- Lay the step word `w` where SEQ fetches next: at `SCRIPT[PC]` (R60, R160). -/
def State.placeWord (s : State) (w : Word) : State :=
  { s with cfg := { s.cfg with script := Memory.put erasedWord s.cfg.script s.pc.toNat w } }

/-- Make SEQ's fetch the very next event: `TODO` empty, no fault, `RST` released, SEQ first in the queue (R160, log 7). -/
def State.readyToFetch (s : State) : State :=
  { s with todo := [], fault := 0, rst := false, queue := .seq :: s.queue }

end Sys2Proof.Machine
end

