-- ==== Sys2Proof/Machine/Step.lean ====
section
/-! DEFINITION. One step of the whole machine, and the placing of one instruction where the next step fetches it. -/

namespace Sys2Proof.Machine

/-- One step: the next event acts (R3, R10). -/
def step (s : State) : Host.Outcome State Fault Refusal :=
  act (nextEvent s).1 (nextEvent s).2

/-- `s` with the instruction whose word is `w` in the script ROM at `PC`, so that the very next step is SEQ's fetch of it
(log 7). `nbits` is 16 for every row of the opcode table. -/
def State.withFetchWord (s : State) (nbits w : Nat) : State :=
  (s.placeWord (BitVec.ofNat 16 (w % 2 ^ nbits))).readyToFetch

end Sys2Proof.Machine
end

