-- ==== Sys2Proof/Machine/Listing.lean ====
section
/-! DEFINITION. The script listing syntax (R91), the pseudo-steps (R92) and the document's step variants (R94). Nothing of
the machine's behaviour rests on this file. -/

namespace Sys2Proof.Machine

/-- The document's six step variants, and the two kinds this spec added (R94). -/
inductive StepVariant where
  | wait
  | readFrame
  | writeFrame
  | rawByte
  | delay
  | transportReset
  | addedBySpec
  deriving DecidableEq, Repr

/-- Which variant of the document a step is (R82, R94). -/
def stepVariant : Instr → StepVariant
  | .wlvAck _ | .wlvPwr _ | .wfe | .wre | .wsl _ | .wsh _ => .wait
  | .rdyl | .rdyh | .rdyt | .stby => .addedBySpec
  | .rdf _ => .readFrame
  | .wrf _ => .writeFrame
  | .rawb _ => .rawByte
  | .dlyu _ | .dlym _ => .delay
  | .trst => .transportReset

/-- One hexadecimal digit, upper case. -/
def hexDigit (n : Nat) : String :=
  String.singleton (("0123456789ABCDEF".toList).getD n '0')

/-- `digits` hexadecimal digits of `n`, the most significant first. -/
def hexText (digits n : Nat) : String :=
  match digits with
  | 0 => ""
  | d + 1 => hexDigit (n / 16 ^ d % 16) ++ hexText d n

/-- A level as a listing operand. -/
def levelText (v : Bool) : String := if v then "1" else "0"

/-- A step as a listing shows it: mnemonic and operands (R91). -/
def stepText : Instr → String
  | .wlvAck v => "WLV ACK, " ++ levelText v
  | .wlvPwr v => "WLV PWR, " ++ levelText v
  | .wfe => "WFE"
  | .wre => "WRE"
  | .wsl d => "WSL " ++ toString d.toNat
  | .wsh d => "WSH " ++ toString d.toNat
  | .rdyl => "RDYL"
  | .rdyh => "RDYH"
  | .rdyt => "RDYT"
  | .rdf n => "RDF " ++ toString n.toNat
  | .wrf k => "WRF " ++ toString k.toNat
  | .rawb v => "RAWB 0x" ++ hexText 2 v.toNat
  | .dlyu c => "DLYU " ++ toString c.toNat
  | .dlym c => "DLYM " ++ toString c.toNat
  | .trst => "TRST"
  | .stby => "STBY"

/-- One line of a listing, without its comment (R91). -/
def listingLine (index : Nat) (i : Instr) : String :=
  toString index ++ ": " ++ hexText 4 (encode i).toNat ++ "  " ++ stepText i

/-- `WPON` (R92). -/
def pseudoWpon : List Instr := [.wlvPwr true]

/-- `WACKH` (R92). -/
def pseudoWackh : List Instr := [.wlvAck true]

/-- `ANNOUNCE <unit> <c>`, where `pause` is `DLYU c` or `DLYM c` (R92). -/
def pseudoAnnounce (pause : Instr) : List Instr := [.rdyh, pause, .rdyl]

/-- `HSF` (R92). -/
def pseudoHsf : List Instr := [.wfe, .rdyt]

/-- `HSR` (R92). -/
def pseudoHsr : List Instr := [.wre, .rdyt]

/-- `PAUSEU c` (R92). -/
def pseudoPauseu (c : BitVec 12) : List Instr := [.dlyu c]

/-- `PAUSEM c` (R92). -/
def pseudoPausem (c : BitVec 12) : List Instr := [.dlym c]

end Sys2Proof.Machine
end

