-- ==== Sys2Proof/WellFormed.lean ====
section
/-! DEFINITION. The checks on a legal step that are made after decoding, at the same fetch (R89). Operand widths are
carried by the types of Instr, so these two are all there is to check. -/

namespace Sys2Proof

/-- The precondition of `readFrame`: "Invariant: N ≥ 1" (R144, R151). -/
def Instr.frameOk : Instr → Bool
  | .rdf n => n != 0
  | _ => true

/-- A directory entry is usable iff `PBASE[k] + PLEN[k] <= 256` (R61). -/
def PayloadEntry.usable (e : PayloadEntry) : Bool :=
  e.base.toNat + e.len.toNat ≤ 256

/-- The directory entry a `WRF` names is usable (R61, R191). -/
def Instr.payloadOk (entry : BitVec 4 → PayloadEntry) : Instr → Bool
  | .wrf k => (entry k).usable
  | _ => true

/-- A step that passes the fetch-time checks (R89, R93a). -/
def Instr.wellFormed (entry : BitVec 4 → PayloadEntry) (i : Instr) : Bool :=
  i.frameOk && i.payloadOk entry

end Sys2Proof
end

