-- ==== Sys2Proof/Safety.lean ====
section
/-! DEFINITION. The terms claims are stated in: what is observable (R12), how a run ends (R13, R198), runs under given
events, what PEER samples, well-formed scripts (R93), the document's session (R181, R182), and the invariants. -/

namespace Sys2Proof.Machine

/-! ## Observation and ends of runs -/

/-- What CORE shows on the wire: the level of `RDY`, whether it drives `DAT`, and with which level (R12). -/
structure WireView where
  rdy   : Bool
  datOe : Bool
  /-- `DO` while `DAT` is driven; nothing is seen of it otherwise (R32). -/
  dout  : Option (Reg 1)
  deriving DecidableEq, Repr

/-- The wire after a step (R12). -/
def State.wire (s : State) : WireView := ⟨s.rdy, s.datOe, if s.datOe then some s.dout else none⟩

/-- What stands behind the inspection ports, all 255 entries of `RXBUF` included (R12, R204); `State.readPort` reads one. -/
structure Inspection where
  pc    : Byte
  fault : BitVec 3
  fpc   : Reg 8
  rxbuf : List (Reg 8)
  deriving DecidableEq, Repr

/-- The inspection ports of a state (R12). -/
def State.inspect (s : State) : Inspection :=
  ⟨s.pc, s.fault, s.fpc, (List.finRange rxbufSize).map s.rxEntry⟩

/-- The good end of a run: `FAULT = 0` and `HALT` at the head of `TODO` (R13). -/
def State.endedWell (s : State) : Bool := s.fault == 0 && s.todo.head? == some .halt

/-- A fault is recorded (R198). -/
def State.faulted (s : State) : Bool := s.fault != 0

/-- SEQ holds: the primitive at the head of `TODO` does not complete now (R9). For ever on another primitive than `HALT`
this is a hang (R198). -/
def State.holding (s : State) : Bool :=
  match s.todo with
  | [] => false
  | p :: _ => perform p s == .hold

/-- CORE's own state is what reset leaves, `RST` being asserted (R210). -/
def State.inReset (s : State) : Prop := s.enterReset = s

/-! ## Runs -/

/-- The machine under the given events, one after the other; it stops where a step stops. -/
def runEvents (es : List Event) (s : State) : Host.Outcome State Fault Refusal :=
  match es with
  | [] => .next s
  | e :: rest =>
    match act e s with
    | .next t => runEvents rest t
    | .fault r => .fault r
    | .refused r => .refused r

/-- The bits PEER samples on `DAT` at the rises among the given events (R122). -/
def sampledBits (es : List Event) (s : State) : List Bool :=
  match es with
  | [] => []
  | e :: rest =>
    match act e s with
    | .next t =>
      match e with
      | .clkRise _ => t.peerBit :: sampledBits rest t
      | _ => sampledBits rest t
    | _ => []

/-- `k` steps of SEQ with no other agent between them: one of the admitted interleavings (R10). -/
def seqs (k : Nat) : List Event := List.replicate k .seq

/-- One clock pulse: a fall, then a rise (R120). -/
def pulse (drv : Drive) : List Event := [.clkFall, .clkRise drv]

/-- The first `j` pulses of a byte PEER drives, LSB first (R66, R132). -/
def sendBits (v : Byte) (j : Nat) : List Event :=
  (List.range j).flatMap fun i => pulse (.level (v.getLsbD i))

/-- Eight pulses in which PEER drives `v`, LSB first (R66, R132). -/
def sendByte (v : Byte) : List Event := sendBits v 8

/-- Eight pulses in which PEER does not drive `DAT` (R133). -/
def clockByte : List Event := (List.range 8).flatMap fun _ => pulse .z

/-- The bits of a byte in wire order (R66). -/
def wireBits (v : Byte) : List Bool := (List.range 8).map fun j => v.getLsbD j

/-- The sum of bytes modulo 256 (R147). -/
def byteSum (bs : List Byte) : Byte := bs.foldl (· + ·) 0

/-- PEER during `readFrame` of the bytes `bs`, by R241, with SEQ always ahead of it; the read loop from its first byte. -/
def readBytesEvents (bs : List Byte) : List Event :=
  match bs with
  | [] => []
  | [b] => seqs 2 ++ sendByte b ++ seqs 5
  | b :: rest => seqs 2 ++ sendByte b ++ seqs 6 ++ readBytesEvents rest

/-- What follows the fetch of `RDF`, up to and including `NEXT`, with PEER keeping the duties of R241. -/
def readFrameEvents (bs : List Byte) : List Event :=
  seqs 1 ++ readBytesEvents bs ++
    (seqs 1 ++ [.ack false] ++ seqs 3 ++ [.ack true] ++ seqs 3 ++ clockByte ++ seqs 4)

/-- One transmitted byte after its handshake: load and turn the line round, eight pulses, release and clear. -/
def transmitEvents : List Event := seqs 2 ++ clockByte ++ seqs 3

/-- One byte after the length byte, with what SEQ does behind it (`ACC`, or `NEXT`): settle delay of `t` ticks, toggle,
transmit. PEER leaves `ACK` low, or, if `raised`, has it high when CORE first polls it and lowers it then (R242). -/
def settledByteEvents (t : Byte) (raised : Bool) : List Event :=
  seqs 1 ++ (if raised then [.ack true] else []) ++ List.replicate t.toNat .tick ++ seqs 1 ++
    (if raised then [.seq, .ack false] else []) ++ seqs 3 ++ transmitEvents ++ seqs 1

/-- What follows the fetch of a `WRF`, up to and including `NEXT`, with PEER keeping the duties of R242; `raised` says of
each byte after the length byte whether PEER raises `ACK` before it. -/
def writeFrameEvents (t : Byte) (raised : List Bool) : List Event :=
  seqs 1 ++ [.ack false] ++ seqs 3 ++ transmitEvents ++ seqs 1 ++ raised.flatMap (settledByteEvents t)

/-- The payload bytes of directory entry `k` (R62). -/
def State.payload (s : State) (k : BitVec 4) : List Byte :=
  (List.range (s.payloadEntry k).len.toNat).map fun i => s.promByte (s.payloadAddress k (BitVec.ofNat 8 i))

/-- The event is a SEQ step that tries, at the head of `TODO`, a primitive of the given kind. -/
def trying (e : Event) (s : State) (kind : Prim → Bool) : Prop :=
  e = .seq ∧ ∃ p rest, s.todo = p :: rest ∧ kind p = true

/-- The two states agree in all but what bytes and bits the wire has carried: `SR`, `DO`, `BYTE`, `CSUM`, `RXBUF` and
PEER's last sample. -/
def sameButData (s t : State) : Prop :=
  t = { s with sr := t.sr, dout := t.dout, byte := t.byte, csum := t.csum, rxbuf := t.rxbuf, peerBit := t.peerBit }

/-- The clock edges of `CLK`. -/
def isEdge : Event → Bool
  | .clkFall => true
  | .clkRise _ => true
  | _ => false

/-- The event asserts `RST`. -/
def isReset : Event → Bool
  | .rst level => level
  | _ => false

/-! ## Endless executions, fairness and hangs (R10, R11, R198) -/

/-- An execution without end: the states `r`, each the outcome of the event `ev` on the one before. The events are any,
so every interleaving is an execution (R10). -/
def isExecution (ev : Nat → Event) (r : Nat → State) : Prop :=
  ∀ n, act (ev n) (r n) = .next (r (n + 1))

/-- "every agent that can step eventually does, and `Tick` events occur infinitely often" (R11, D41, U32). ENG's step is
the very event of PEER's edge, and PEER is the environment, which owes CORE no event at all (R220, R240): so SEQ and TMR
are the agents this speaks of. -/
structure Fair (ev : Nat → Event) (r : Nat → State) : Prop where
  /-- SEQ steps again, or is stopped by reset or a fault. -/
  seq  : ∀ n, ∃ m, n ≤ m ∧ (ev m = .seq ∨ (r m).seqEnabled = false)
  /-- A `Tick` comes again. -/
  tick : ∀ n, ∃ m, n ≤ m ∧ ev m = .tick

/-- From the `n`-th state on SEQ stands at the primitive `p` for ever, with no fault and `RST` released. -/
def standsAt (r : Nat → State) (n : Nat) (p : Prim) : Prop :=
  ∃ rest, ∀ m, n ≤ m → (r m).todo = p :: rest ∧ (r m).seqEnabled = true

/-- The execution ends well: SEQ stands at `HALT` for ever (R13, R198). -/
def reachesStandby (r : Nat → State) : Prop := ∃ n, standsAt r n .halt

/-- A hang: a fair execution in which SEQ stands for ever at another primitive than `HALT` (R11, R13, R198). -/
def hangs (ev : Nat → Event) (r : Nat → State) : Prop :=
  Fair ev r ∧ ∃ n p, p ≠ .halt ∧ standsAt r n p

/-! ## Scripts -/

/-- `expand(w)` of the step of a legal word (R161). -/
def expand (s : State) : Instr → List Prim
  | .wlvAck v => waitLevel .ack v
  | .wlvPwr v => waitLevel .pwr v
  | .wfe => waitFallingEdge
  | .wre => waitRisingEdge
  | .wsl d => waitLevelLow d
  | .wsh d => waitLevelHigh d
  | .rdyl => [.setrdy false]
  | .rdyh => [.setrdy true]
  | .rdyt => toggleReady
  | .rdf n => readFrame n.toNat
  | .wrf k => writeFrame s.cfg.tSettle k (s.payloadEntry k).len
  | .rawb v => writeByte (.imm v)
  | .dlyu c => delayMicroseconds (microsCount c)
  | .dlym c => delayMicroseconds (millisCount c)
  | .trst => [.toff, .ton]
  | .stby => [.halt]

/-- The word of the script ROM at index `i` (R60). -/
def scriptAt (c : Config) (i : Nat) : Word := (Memory.lookup c.script i).getD erasedWord

/-- The directory entry `k` (R61). -/
def entryAt (c : Config) (k : BitVec 4) : PayloadEntry := (Memory.lookup c.pdir k.toNat).getD unusedEntry

/-- The step at index `i`, if its word is legal and passes the fetch-time checks (R93a). -/
def usableStep (c : Config) (i : Nat) : Option Instr :=
  match decode (scriptAt c i) with
  | .ok instr => if instr.wellFormed (entryAt c) then some instr else none
  | .error _ => none

/-- The steps from index `i` up to and including the first `STBY`, if `fuel` indices hold it and all are usable. -/
def usablePrefix (c : Config) (fuel i : Nat) : Option (List Instr) :=
  match fuel with
  | 0 => none
  | f + 1 =>
    match usableStep c i with
    | none => none
    | some .stby => some [.stby]
    | some instr => (usablePrefix c f (i + 1)).map (instr :: ·)

/-- The steps of a well-formed script from index 0 to the first `STBY` (R93, R181). -/
def scriptSteps (c : Config) : Option (List Instr) := usablePrefix c 256 0

/-- A well-formed script (R93). -/
def scriptWellFormed (c : Config) : Bool := (scriptSteps c).isSome

/-- A delay step. -/
def isDelay : Instr → Bool
  | .dlyu _ => true
  | .dlym _ => true
  | _ => false

/-- Repetitions of the group `WFE`, `RDYT`, `WRE`, `RDYT`, any delay steps after any member: `phase` 0 to 3 says which
member is due; answers what follows a completed group, at the first step that is neither (R181 item 7, log 15). -/
def dropHandshakes (phase groups : Nat) (is : List Instr) : Option (List Instr) :=
  match is with
  | [] => none
  | i :: rest =>
    if isDelay i && (phase != 0 || groups != 0) then dropHandshakes phase groups rest
    else
      match phase, i with
      | 0, .wfe => dropHandshakes 1 groups rest
      | 1, .rdyt => dropHandshakes 2 groups rest
      | 2, .wre => dropHandshakes 3 groups rest
      | 3, .rdyt => dropHandshakes 0 (groups + 1) rest
      | 0, _ => if groups = 0 then none else some (i :: rest)
      | _, _ => none

/-- Pairs `RDF 4`, `WRF k` with exactly one `TRST`, directly before an `RDF 4`, then `STBY`: answers the payloads written
(R181 items 9 to 11). -/
def pairsOf (resets : Nat) (is : List Instr) : Option (List (BitVec 4)) :=
  match is with
  | [.stby] => if resets = 1 then some [] else none
  | .rdf n :: .wrf k :: rest => if n = 4 then (pairsOf resets rest).map (k :: ·) else none
  | .trst :: .rdf n :: .wrf k :: rest =>
    if n = 4 && resets == 0 then (pairsOf 1 rest).map (k :: ·) else none
  | _ => none

/-- The steps follow the document's session (R181): items 1 to 6, the handshake groups, `RAWB 0x00`, the pairs, `STBY`,
with payloads of lengths 5 and 21 among those written. -/
def conformsSteps (c : Config) (is : List Instr) : Bool :=
  match is with
  | .wlvPwr true :: .wlvAck true :: .rdyh :: d :: .rdyl :: .wre :: .rdyh :: .rdf n :: rest =>
    isDelay d && n == 4 &&
      match dropHandshakes 0 0 rest with
      | some (.rawb v :: pairs) =>
        v == 0 &&
          match pairsOf 0 pairs with
          | some ks =>
            ks.any (fun k => (entryAt c k).len == 5) && ks.any (fun k => (entryAt c k).len == 21)
          | none => false
      | _ => false
  | _ => false

/-- `Conforms` (R181), for a well-formed script. -/
def conforms (c : Config) : Bool :=
  match scriptSteps c with
  | some is => conformsSteps c is
  | none => false

/-- The reference script `REF`, its open durations as arguments (R182). -/
def refSteps (announce : BitVec 12) (pause1 pause2 : BitVec 12) : List Instr :=
  [.wlvPwr true, .wlvAck true] ++ pseudoAnnounce (.dlym announce) ++ [.wre, .rdyh, .rdf 4] ++
    pseudoHsf ++ pseudoPauseu pause1 ++ pseudoHsr ++ pseudoPauseu pause2 ++
    [.rawb 0, .rdf 4, .wrf 0, .trst, .rdf 4, .wrf 1, .stby]

/-- Lay steps into a script ROM from index `i` on (R60). -/
def layScript (is : List Instr) (i : Nat) : Memory Word :=
  match is with
  | [] => []
  | instr :: rest => Memory.put erasedWord (layScript rest (i + 1)) i (encode instr)

/-! ## Invariants -/

/-- The operands a primitive may have: `0 <= t <= 4095000` (R103), `0 <= i <= 254` (R143). -/
def Prim.inRange : Prim → Bool
  | .ldt t => t.toNat ≤ 4095000
  | .stb i => i.toNat < rxbufSize
  | _ => true

/-- The tables of the configuration are in canonical form: indices rising and below the sizes of R60 to R62, no element
equal to what an unlisted index reads as. -/
structure Config.Canonical (c : Config) : Prop where
  script : Memory.wf 256 (fun w => w != erasedWord) c.script
  pdir   : Memory.wf 16 (fun e => e != unusedEntry) c.pdir
  prom   : Memory.wf 256 (fun v => v != erasedByte) c.prom

/-- What every reachable state satisfies. -/
structure State.Inv (s : State) : Prop where
  cfg   : Config.Canonical s.cfg
  rxbuf : Memory.wf rxbufSize (fun _ => true) s.rxbuf
  sr    : s.sr.wf
  dout  : s.dout.wf
  byte  : s.byte.wf
  fpc   : s.fpc.wf
  todo  : ∀ p ∈ s.todo, p.inRange = true
  dly   : s.dly.toNat ≤ 4095000
  fault : s.fault.toNat ≤ 4

/-- `DAT_OE` after a primitive has completed (R123, R128). -/
def datOeAfter (oe : Bool) : Prim → Bool
  | .setdir d => d
  | .toff => false
  | _ => oe

/-- What is left of the current step ends with the data line released (R30, R232). -/
def State.releases (s : State) : Prop := s.todo.foldl datOeAfter s.datOe = false

/-- `TODO` is what remains of the usable step at `PC` (R26, R161). -/
def State.onStep (s : State) : Prop :=
  s.todo = [] ∨ ∃ i, usableStep s.cfg s.pc.toNat = some i ∧ s.todo <:+ expand s i ++ [.next]

/-- The run of a well-formed script: no fault, `PC` at or before the first `STBY`, `TODO` what remains of the step at `PC`,
and all of it if that is the `STBY` (R93, R195). -/
structure State.OnScript (s : State) : Prop where
  script : scriptWellFormed s.cfg = true
  fault  : s.fault = 0
  pc     : (usablePrefix s.cfg (256 - s.pc.toNat) s.pc.toNat).isSome = true
  todo   : s.onStep
  stby   : usableStep s.cfg s.pc.toNat = some .stby → s.todo = [] ∨ s.todo = [.halt, .next]

/-- `CSUM` after the primitives of a written frame have run from `c` (R141, R142). -/
def State.sumAfter (s : State) (c : Byte) : Prim → Byte
  | .clrsum => 0
  | .acc (.pay k i) => c + s.promByte (s.payloadAddress k i)
  | _ => c

/-- While a written frame is under way, what is still to be added brings `CSUM` to the sum of its payload (R146). -/
def State.writeSums (s : State) : Prop :=
  s.onStep ∧ ∀ k, usableStep s.cfg s.pc.toNat = some (.wrf k) → s.todo ≠ [] →
    s.todo.foldl s.sumAfter s.csum = byteSum (s.payload k)

/-- The primitives by which a received byte is taken, added and stored. -/
def Prim.handlesByte : Prim → Bool
  | .getb => true
  | .acc _ => true
  | .stb _ => true
  | _ => false

/-- How many bytes of a read frame of `n` bytes are stored when `todo` remains: as many as the index the next `STB` has. -/
def storedBytes (n : Byte) (todo : List Prim) : Nat :=
  match todo with
  | [] => n.toNat
  | .stb i :: _ => i.toNat
  | _ :: rest => storedBytes n rest

/-- While a read frame is under way, `CSUM` is the sum of the entries stored so far; behind a `GETB` the byte latch is
known, and between its `ACC` and its `STB` it is in the sum already (R145). -/
def State.readSums (s : State) : Prop :=
  s.onStep ∧ ∀ n, usableStep s.cfg s.pc.toNat = some (.rdf n) → s.todo ≠ [] → .clrsum ∉ s.todo →
    ∃ bs : List Byte, bs.length = storedBytes n s.todo ∧
      (∀ (j : Fin rxbufSize) (b : Byte), bs[j.val]? = some b → s.rxEntry j = Reg.known b) ∧
      match s.todo.find? Prim.handlesByte with
      | some (.stb _) => ∃ v, s.byte = Reg.known v ∧ s.csum = byteSum bs + v
      | some (.acc _) => (∃ v, s.byte = Reg.known v) ∧ s.csum = byteSum bs
      | _ => s.csum = byteSum bs

/-- While `RST` is asserted CORE's state is what reset leaves (R210). -/
def State.resetHeld (s : State) : Prop := s.rst = true → s.inReset

end Sys2Proof.Machine
end

