-- ==== Sys2Proof/Certificates/Slice0/Obligations.lean ====
section
/-! DEFINITION. The statements for the provers. Each docstring names the rules of the spec it formalises. -/

open Sys2Proof Sys2Proof.Machine

/-! ## Encoding -/

/-- Decoding the word of a step gives the step, for every step and every operand (R80 to R87). -/
def Obligations.DecodeInvertsEncode : Prop :=
  ∀ i : Instr, decode (encode i) = .ok i

/-- A word that decodes is the word of its step: no two words are one step (R82). -/
def Obligations.EncodeInvertsDecode : Prop :=
  ∀ (w : Word) (i : Instr), decode w = .ok i → encode i = w

/-- A word decodes to a step iff it lies in that step's row, and then in no other row; an illegal word lies in none
(R82, R88). -/
def Obligations.LegalWordLiesInOneRow : Prop :=
  ∀ w : Word, opcodeTable.filter (·.has w) =
    match decode w with
    | .ok i => [i.row]
    | .error _ => []

/-- The illegal words by class (R88). -/
def Obligations.IllegalWordsByClass : Prop :=
  ∀ w : Word, (∃ why, decode w = .error why) ↔
    ((tagOf w) = 0 ∨ 10 ≤ (tagOf w).toNat) ∨
    ((tagOf w) = 1 ∧ (6 ≤ (subOf w).toNat ∨ ((subOf w).toNat ≤ 1 ∧ 2 ≤ (argOf w).toNat) ∨
      (((subOf w) = 2 ∨ (subOf w) = 3) ∧ (argOf w) ≠ 0))) ∨
    ((tagOf w) = 2 ∧ (3 ≤ (subOf w).toNat ∨ (argOf w) ≠ 0)) ∨
    (((tagOf w) = 3 ∨ (tagOf w) = 4 ∨ (tagOf w) = 5) ∧ (subOf w) ≠ 0) ∨
    ((tagOf w) = 4 ∧ 16 ≤ (argOf w).toNat) ∨
    (((tagOf w) = 8 ∨ (tagOf w) = 9) ∧ (opOf w) ≠ 0)

/-- A word of each family as the spec's decoding vectors list it (95 section 2.4). -/
def Obligations.ListedWordsDecode : Prop :=
  decode 0b0001000000000001 = .ok (.wlvAck true) ∧ decode 0b0001000100000001 = .ok (.wlvPwr true) ∧
  decode 0b0001010011111111 = .ok (.wsl 255) ∧ decode 0b0010001000000000 = .ok .rdyt ∧
  decode 0b0011000000000001 = .ok (.rdf 1) ∧ decode 0b0100000000001111 = .ok (.wrf 15) ∧
  decode 0b0101000011111111 = .ok (.rawb 0xFF) ∧ decode 0b0110000001100100 = .ok (.dlyu 100) ∧
  decode 0b0111111111111111 = .ok (.dlym 4095) ∧ decode 0b1000000000000000 = .ok .trst ∧
  decode 0b1001000000000000 = .ok .stby ∧ (decode 0b0001000000000010).toOption = none

/-! ## Fetch -/

/-- Where SEQ moves next and the word at `PC` decodes, the step is the decoded instruction's meaning at the state with the
event taken (R160, R3). -/
def Obligations.StepRunsDecodedInstruction : Prop :=
  ∀ (s : State) (i : Instr), (nextEvent s).1 = .seq → (nextEvent s).2.seqEnabled = true →
    (nextEvent s).2.todo = [] → decode (nextEvent s).2.scriptWord = .ok i →
    step s = exec i (nextEvent s).2

/-- A word laid where the next step fetches is run by the very next step (R60, R160; how a word comes to stand there is
the model's: log 7). -/
def Obligations.PlacedWordIsRunNext : Prop :=
  ∀ (s : State) (w : Word) (i : Instr), decode w = .ok i →
    (s.withFetchWord 16 w.toNat).scriptWord = w ∧
    step (s.withFetchWord 16 w.toNat) =
      exec i { s.placeWord w with todo := [], fault := 0, rst := false }

/-- The fetch of a step that passes the fetch-time checks loads its expansion and `NEXT` and writes nothing else
(R160, R161). -/
def Obligations.FetchLoadsExpansion : Prop :=
  ∀ (i : Instr) (s : State), i.wellFormed (entryAt s.cfg) = true →
    exec i s = .next { s with todo := expand s i ++ [.next] }

/-- The fetch of any step writes only `TODO` and, where it faults, the registers of `TRAP` (R160, R193). -/
def Obligations.FetchFrame : Prop :=
  ∀ (i : Instr) (s t : State), exec i s = .next t →
    t = { s with todo := t.todo, fault := t.fault, fpc := t.fpc, datOe := t.datOe } ∧
    (∀ j, t.rxEntry j = s.rxEntry j) ∧
    (t.todo ≠ [] → t.fault = s.fault ∧ t.fpc = s.fpc ∧ t.datOe = s.datOe)

/-- The numbers of primitives the frame operations expand to (R153). -/
def Obligations.FramePrimitiveCounts : Prop :=
  (∀ n : Nat, 1 ≤ n → (readFrame n).length = 8 * n + 10) ∧
  (∀ (t : Byte) (k : BitVec 4) (n : Byte), (writeFrame t k n).length = 11 * n.toNat + 20) ∧
  (∀ (s : State) (l : List Prim), (s.load l).todo.length = l.length + 1)

/-- A written frame loads the data register, sentinels apart, with the length, the payload bytes in ascending order and
the checksum, and has `n + 2` transmissions, `n + 2` waits for `ACK` low and `n + 2` toggles (R67, R146, R148). -/
def Obligations.WrittenFrameByteOrder : Prop :=
  ∀ (t : Byte) (k : BitVec 4) (n : Byte),
    ((writeFrame t k n).filterMap fun p =>
      match p with
      | .putb .sent => none
      | .putb src => some src
      | _ => none) =
      .imm n :: ((List.range n.toNat).map fun i => .pay k (BitVec.ofNat 8 i)) ++ [.csumr] ∧
    ((writeFrame t k n).filter (· == .setdir true)).length = n.toNat + 2 ∧
    ((writeFrame t k n).filter (· == .waitl .ack false)).length = n.toNat + 2 ∧
    ((writeFrame t k n).filter (· == .setrdy false)).length = n.toNat + 2 ∧
    ((writeFrame t k n).filter (· == .setrdy true)).length = n.toNat + 2

/-! ## Faults -/

/-- An illegal word faults at its fetch and nothing else happens (R88, R191, R193). -/
def Obligations.IllegalWordFaultsAtFetch : Prop :=
  ∀ (s : State) (why : IllegalWord), s.seqEnabled = true → s.todo = [] → decode s.scriptWord = .error why →
    seqStep s = .next { s with fault := 1, fpc := Reg.known s.pc, datOe := false, todo := [] }

/-- `RDF 0` is rejected before any effect, and `RDF n` with `n ≠ 0` is not (R151, R172). -/
def Obligations.ReadFrameOfZeroFaults : Prop :=
  ∀ (s : State) (n : Byte),
    exec (.rdf n) s = .next { s with fault := 2, fpc := Reg.known s.pc, datOe := false, todo := [] } ↔ n = 0

/-- `WRF k` faults iff its directory entry runs past the end of `PROM` (R61, R173, R191). -/
def Obligations.PayloadPastEndFaults : Prop :=
  ∀ (s : State) (k : BitVec 4),
    (exec (.wrf k) s = .next { s with fault := 4, fpc := Reg.known s.pc, datOe := false, todo := [] } ↔
      256 < (s.payloadEntry k).base.toNat + (s.payloadEntry k).len.toNat)

/-- After a fault SEQ has no step and no agent changes what the fault recorded; only reset clears it (R193, R197). -/
def Obligations.OnlyResetClearsFault : Prop :=
  ∀ (e : Event) (s t : State), s.fault ≠ 0 → act e s = .next t →
    (e = .seq → t = s) ∧
    (e ≠ .rst true → t.fault = s.fault ∧ t.fpc = s.fpc ∧ t.pc = s.pc ∧ t.todo = s.todo ∧ t.rdy = s.rdy ∧
      t.datOe = s.datOe ∧ t.csum = s.csum ∧ t.byte = s.byte ∧ t.rxbuf = s.rxbuf) ∧
    (e = .rst true → t.fault = 0)

/-! ## Primitives -/

/-- `SETRDY b` drives the ready line and does nothing else (R101). -/
def Obligations.SetrdyDrivesReadyLine : Prop :=
  ∀ (s : State) (b : Bool) (rest : List Prim), s.seqEnabled = true → s.todo = .setrdy b :: rest →
    seqStep s = .next { s with rdy := b, todo := rest }

/-- `WAITL l v` completes iff the line reads `v` at that instant, else nothing changes; only the line's owner lifts the
hold (R102). -/
def Obligations.WaitlSamplesTheLine : Prop :=
  (∀ (s : State) (l : Line) (v : Bool) (rest : List Prim), s.seqEnabled = true → s.todo = .waitl l v :: rest →
    seqStep s = .next (if s.level l = v then { s with todo := rest } else s)) ∧
  (∀ (e : Event) (s t : State) (l : Line), act e s = .next t → t.level l ≠ s.level l →
    match l with
    | .ack => e = .ack (t.level l)
    | .pwr => e = .pwr (t.level l))

/-- `LDT t` loads the delay counter (R103). -/
def Obligations.LdtLoadsDelay : Prop :=
  ∀ (s : State) (d : Micros) (rest : List Prim), s.seqEnabled = true → s.todo = .ldt d :: rest →
    seqStep s = .next { s with dly := d, todo := rest }

/-- A `Tick` counts the delay down to zero and not below, and `WAITT` completes iff it is zero (R104, R105). -/
def Obligations.DelayCountsDownToZero : Prop :=
  (∀ s : State, s.rst = false →
    ∃ t, act .tick s = .next t ∧ t = { s with dly := t.dly } ∧ t.dly.toNat = s.dly.toNat - 1) ∧
  (∀ (s : State) (rest : List Prim), s.seqEnabled = true → s.todo = .waitt :: rest →
    seqStep s = .next (if s.dly.toNat = 0 then { s with todo := rest } else s))

/-- `SETDIR d` writes the direction of the data pin and nothing else (R123). -/
def Obligations.SetdirWritesDirection : Prop :=
  ∀ (s : State) (d : Bool) (rest : List Prim), s.seqEnabled = true → s.todo = .setdir d :: rest →
    seqStep s = .next { s with datOe := d, todo := rest }

/-- `CLRTC` clears the flag and leaves the data register, the counter and the latch alone (R124). -/
def Obligations.DummyReadClearsFlag : Prop :=
  ∀ (s : State) (rest : List Prim), s.seqEnabled = true → s.todo = .clrtc :: rest →
    seqStep s = .next { s with tc := false, todo := rest }

/-- `WAITTC` completes iff the flag is set and does not clear it; only a rise that completes a group of eight sets it
(R125, R27). -/
def Obligations.WaittcWaitsForEightRises : Prop :=
  (∀ (s : State) (rest : List Prim), s.seqEnabled = true → s.todo = .waittc :: rest →
    seqStep s = .next (if s.tc = true then { s with todo := rest } else s)) ∧
  (∀ (e : Event) (s t : State), act e s = .next t → s.tc = false → t.tc = true →
    (∃ drv, e = .clkRise drv) ∧ s.clk = false ∧ s.en = true ∧ s.bitcnt = 7 ∧ t.bitcnt = 0)

/-- `GETB` copies the data register to the byte latch and clears the flag; the read of the register shows every specified
bit as it is and draws every unspecified one (R126, R39, R7; the model's form of the draw, of its counter and of the
marks: log 2, log 12, log 19). -/
def Obligations.GetbTakesTheDataRegister : Prop :=
  ∀ (s : State) (rest : List Prim), s.seqEnabled = true → s.todo = .getb :: rest →
    seqStep s = .next { s with
      byte := Reg.known (s.sr.read (Config.freeByte s.draws)), tc := false, todo := rest, draws := s.draws + 1 } ∧
    ∀ (drawn : Byte) (j : Nat), (s.sr.read drawn).getLsbD j =
      if s.sr.unspec.getLsbD j then drawn.getLsbD j else s.sr.bits.getLsbD j

/-- `PUTB s` writes the value of its source; a non-zero write clears the flag, a zero write leaves a clear flag clear and
a set flag at a free value (R127, R8; the model's form of that draw: log 2, log 12). -/
def Obligations.PutbWritesAndClearsFlag : Prop :=
  ∀ (s : State) (src : Src) (rest : List Prim), s.seqEnabled = true → s.todo = .putb src :: rest →
    ∃ (v : Byte) (flag : Bool),
      seqStep s = .next { s with sr := Reg.known v, tc := flag, todo := rest, draws := s.draws + 1 } ∧
      (match src with
        | .imm u => v = u
        | .byte => ∀ u, s.byte = Reg.known u → v = u
        | .csumr => v = s.csum
        | .pay k i => v = s.promByte ((s.payloadEntry k).base + i)
        | .sent => v = s.cfg.sent.val) ∧
      (v ≠ 0 → flag = false) ∧ (s.tc = false → flag = false) ∧
      (v = 0 → s.tc = true → flag = Config.freeBit s.draws)

/-- `TOFF` disables and clears the engine and leaves `SR` and `DO` unspecified; while it is disabled every clock edge is
ignored; `TON` enables it and changes nothing else (R128, R129). -/
def Obligations.TransportSwitchOffAndOn : Prop :=
  (∀ (s : State) (rest : List Prim), s.seqEnabled = true → s.todo = .toff :: rest →
    seqStep s = .next { s with
      en := false, bitcnt := 0, tc := false, datOe := false
      sr := Reg.unspecified, dout := Reg.unspecified, todo := rest }) ∧
  (∀ (s t : State) (e : Event), s.en = false → isEdge e = true → act e s = .next t →
    t = { s with clk := t.clk, peerBit := t.peerBit, draws := t.draws }) ∧
  (∀ (s : State) (rest : List Prim), s.seqEnabled = true → s.todo = .ton :: rest →
    seqStep s = .next { s with en := true, todo := rest })

/-- `CLRSUM` zeroes the accumulator, `ACC` adds a byte modulo 256 and sets no flag (R141, R142). -/
def Obligations.ChecksumAccumulates : Prop :=
  (∀ (s : State) (rest : List Prim), s.seqEnabled = true → s.todo = .clrsum :: rest →
    seqStep s = .next { s with csum := 0, todo := rest }) ∧
  (∀ (s : State) (rest : List Prim), s.seqEnabled = true → s.todo = .acc .byte :: rest →
    ∃ (t : State) (v : Byte),
      seqStep s = .next t ∧ t = { s with csum := t.csum, todo := rest, draws := s.draws + 1 } ∧
      t.csum.toNat = (s.csum.toNat + v.toNat) % 256 ∧ ∀ u, s.byte = Reg.known u → v = u) ∧
  (∀ (s : State) (k : BitVec 4) (i : Byte) (rest : List Prim), s.seqEnabled = true → s.todo = .acc (.pay k i) :: rest →
    ∃ t, seqStep s = .next t ∧ t = { s with csum := t.csum, todo := rest, draws := s.draws + 1 } ∧
      t.csum.toNat = (s.csum.toNat + (s.promByte ((s.payloadEntry k).base + i)).toNat) % 256)

/-- `STB i` stores the byte latch at `RXBUF[i]`; every other entry and everything else is unchanged (R143, R74). -/
def Obligations.StbStoresOneEntry : Prop :=
  ∀ (s : State) (i : Byte) (rest : List Prim), i.toNat ≤ 254 → s.seqEnabled = true → s.todo = .stb i :: rest →
    ∃ (t : State) (v : Byte), seqStep s = .next t ∧ (∀ u, s.byte = Reg.known u → v = u) ∧
      (∀ j : Fin rxbufSize, t.rxEntry j = if j.val = i.toNat then Reg.known v else s.rxEntry j) ∧
      (∀ j : Fin rxbufSize, j.val = i.toNat → (t.readPort (.rxbuf j)).1 = v) ∧
      t = { s with rxbuf := t.rxbuf, todo := rest, draws := s.draws + 1 }

/-- `NEXT` goes on to the following step, or faults at the last index instead of wrapping (R162). -/
def Obligations.NextAdvancesOrOverruns : Prop :=
  ∀ (s : State) (rest : List Prim), s.seqEnabled = true → s.todo = .next :: rest →
    (s.pc ≠ 255 → ∃ t, seqStep s = .next t ∧ t = { s with pc := t.pc, todo := rest } ∧ t.pc.toNat = s.pc.toNat + 1) ∧
    (s.pc = 255 → seqStep s = .next { s with fault := 3, fpc := Reg.known 255, datOe := false, todo := [] })

/-- `HALT` never completes: SEQ holds on it, no step of any agent lifts it, it is the good end of a run, and only reset
leaves it (R163). -/
def Obligations.HaltNeverCompletes : Prop :=
  ∀ (s : State) (rest : List Prim), s.fault = 0 → s.todo = .halt :: rest →
    seqStep s = .next s ∧ s.endedWell = true ∧
    ∀ (e : Event) (t : State), act e s = .next t →
      (e ≠ .rst true → t.endedWell = true ∧ t.todo = s.todo ∧ t.pc = s.pc) ∧
      (e = .rst true → t.endedWell = false ∧ t.todo = [])

/-! ## The shift engine -/

/-- A falling edge loads the output latch from bit 0 of the data register iff the transport is enabled, and changes
nothing else of CORE (R121). -/
def Obligations.ClkFallLoadsOutputLatch : Prop :=
  ∀ s : State, s.rst = false → s.clk = true →
    (s.en = true → ∃ b : Bool,
      act .clkFall s = .next { s with clk := false, dout := Reg.known (BitVec.ofBool b), draws := s.draws + 1 } ∧
      (s.sr.unspec.getLsbD 0 = false → b = s.sr.bits.getLsbD 0)) ∧
    (s.en = false → act .clkFall s = .next { s with clk := false })

/-- The level on `DAT` at a rise and the level PEER samples, by the five rows of the table (R37; the two independent
draws are the model's free values: log 12). -/
def Obligations.DatLevelTable : Prop :=
  ∀ (s : State) (b o : Bool),
    (s.datOe = false → s.pad (.level b) = b ∧ s.peerSample (.level b) = b) ∧
    (s.datOe = true → s.dout = Reg.known (BitVec.ofBool o) →
      (s.pad .z = o ∧ s.peerSample .z = o) ∧
      (b = o → s.pad (.level b) = o ∧ s.peerSample (.level b) = o) ∧
      (b ≠ o → s.pad (.level b) = Config.freeBit (s.draws + 1) ∧
        s.peerSample (.level b) = Config.freeBit (s.draws + 2))) ∧
    (s.datOe = false → s.pad .z = Config.freeBit (s.draws + 1) ∧ s.peerSample .z = Config.freeBit (s.draws + 2))

/-- An enabled rising edge shifts the level on `DAT` in at bit 7 and counts modulo 8, setting the flag at the eighth,
whatever SEQ is doing; a disabled one is ignored (R122). -/
def Obligations.ClkRiseShiftsAndCounts : Prop :=
  ∀ (s : State) (drv : Drive), s.rst = false → s.clk = false →
    ∃ t, act (.clkRise drv) s = .next t ∧ t.clk = true ∧ t.peerBit = s.peerSample drv ∧
      t = { s with sr := t.sr, bitcnt := t.bitcnt, tc := t.tc, clk := true, peerBit := t.peerBit, draws := t.draws } ∧
      (s.en = false → t.sr = s.sr ∧ t.bitcnt = s.bitcnt ∧ t.tc = s.tc) ∧
      (s.en = true →
        (∀ v, s.sr = Reg.known v → ∃ v', t.sr = Reg.known v' ∧ v'.getLsbD 7 = s.pad drv ∧
          ∀ j, j < 7 → v'.getLsbD j = v.getLsbD (j + 1)) ∧
        t.bitcnt.toNat = (s.bitcnt.toNat + 1) % 8 ∧
        (t.tc = true ↔ s.bitcnt = 7 ∨ s.tc = true))

/-- `j` pulses of a byte PEER drives, whatever the counter was: the `j` bits stand at the top of `SR`, the old ones have
moved down, and the flag is set once the counter has passed seven (R132, R134; marks of unspecified bits move with them,
log 19). -/
def Obligations.PulsesShiftBitsIn : Prop :=
  ∀ (s : State) (v : Byte) (j : Nat), j ≤ 8 → s.rst = false → s.en = true → s.clk = true → s.datOe = false →
    ∃ t, runEvents (sendBits v j) s = .next t ∧
      (∀ i, i < 8 → t.sr.bits.getLsbD i = (if 8 ≤ i + j then v.getLsbD (i + j - 8) else s.sr.bits.getLsbD (i + j)) ∧
        t.sr.unspec.getLsbD i = (if 8 ≤ i + j then false else s.sr.unspec.getLsbD (i + j))) ∧
      t.bitcnt.toNat = (s.bitcnt.toNat + j) % 8 ∧
      (t.tc = true ↔ s.tc = true ∨ 8 ≤ s.bitcnt.toNat + j) ∧
      t = { s with sr := t.sr, dout := t.dout, bitcnt := t.bitcnt, tc := t.tc, peerBit := t.peerBit, draws := t.draws }

/-- Eight pulses with nothing driven against CORE transmit the data register LSB first and rotate it once round
(R133). -/
def Obligations.ByteIsTransmittedLsbFirst : Prop :=
  ∀ (s : State) (v : Byte), s.rst = false → s.en = true → s.clk = true → s.datOe = true → s.bitcnt = 0 →
    s.sr = Reg.known v →
    sampledBits clockByte s = wireBits v ∧
    ∃ t, runEvents clockByte s = .next t ∧ t.sr = Reg.known v ∧ t.bitcnt = 0 ∧ t.tc = true ∧
      t = { s with dout := t.dout, tc := true, peerBit := t.peerBit, draws := t.draws }

/-- The steps of ENG and TMR and the changes of the input lines never divert SEQ: they leave everything but the transport
registers, the delay counter and the pins as it was (R196). -/
def Obligations.OtherAgentsNeverDivertSeq : Prop :=
  ∀ (e : Event) (s t : State), e ≠ .seq → (∀ b, e ≠ .rst b) → act e s = .next t →
    t = { s with
      sr := t.sr, dout := t.dout, bitcnt := t.bitcnt, tc := t.tc, dly := t.dly
      pwr := t.pwr, ack := t.ack, clk := t.clk, peerBit := t.peerBit, draws := t.draws }

/-! ## Reset -/

/-- After `RST` has been asserted and released, from any state, every piece of state has its reset value, and reading
one the spec leaves unspecified, an entry of `RXBUF` included, yields the draw, whatever it is (R38, R210, R211, R7). The
last clause, a read of an entry on its inspection port (R12), is the model's own form of a draw and of a port read (log 2,
log 4). -/
def Obligations.ResetLeavesResetValues : Prop :=
  ∀ s : State, ∃ t, runEvents [.rst true, .rst false] s = .next t ∧
    t.dout = Reg.known 0 ∧ t.bitcnt = 0 ∧ t.tc = false ∧ t.tcfg = 0x47 ∧ t.datOe = false ∧ t.rdy = false ∧
    t.dly = 0 ∧ t.csum = 0 ∧ t.pc = 0 ∧ t.todo = [] ∧ t.fault = 0 ∧
    (∀ d, t.sr.read d = d ∧ t.byte.read d = d ∧ t.fpc.read d = d) ∧
    (∀ i d, (t.rxEntry i).read d = d) ∧
    t.cfg = s.cfg ∧ t.rst = false ∧
    ∀ i, t.readPort (.rxbuf i) = (Config.freeByte t.draws, t.passDraws 1)

/-- While `RST` is asserted every piece of state holds its reset value, whatever any agent does (R210). -/
def Obligations.ResetValuesHeldWhileAsserted : Prop :=
  ∀ s t : State, s.resetHeld → step s = .next t → t.resetHeld

/-! ## The steps, each to its end under given events (one of the admitted interleavings) -/

/-- The ready-line steps: low, high, and low then high (R171, R175, R184). -/
def Obligations.ReadyLineStepsComplete : Prop :=
  ∀ s : State, s.seqEnabled = true → s.pc ≠ 255 →
    (∃ t, exec .rdyl s = .next t ∧
      runEvents (seqs 2) t = .next { s with rdy := false, pc := s.pc + 1, todo := [] }) ∧
    (∃ t, exec .rdyh s = .next t ∧
      runEvents (seqs 2) t = .next { s with rdy := true, pc := s.pc + 1, todo := [] }) ∧
    (∃ t u, exec .rdyt s = .next t ∧ runEvents (seqs 1) t = .next u ∧ u.rdy = false ∧
      runEvents (seqs 2) u = .next { s with rdy := true, pc := s.pc + 1, todo := [] })

/-- The plain level waits complete at once where the line has the level, and otherwise hold until it has
(R165, R166). -/
def Obligations.LevelWaitStepsComplete : Prop :=
  ∀ (s : State) (v : Bool), s.seqEnabled = true → s.pc ≠ 255 →
    (∃ t, exec (.wlvAck v) s = .next t ∧
      (s.ack = v → runEvents (seqs 2) t = .next { s with pc := s.pc + 1, todo := [] }) ∧
      (s.ack ≠ v → seqStep t = .next t ∧
        runEvents ([.seq, .ack v] ++ seqs 2) t = .next { s with ack := v, pc := s.pc + 1, todo := [] })) ∧
    (∃ t, exec (.wlvPwr v) s = .next t ∧
      (s.pwr = v → runEvents (seqs 2) t = .next { s with pc := s.pc + 1, todo := [] }) ∧
      (s.pwr ≠ v → seqStep t = .next t ∧
        runEvents ([.seq, .pwr v] ++ seqs 2) t = .next { s with pwr := v, pc := s.pc + 1, todo := [] }))

/-- The edge waits complete on a sample of the first level and a later one of the second; where the line stands at the
second level they hold (R167, R168, R106, R107). -/
def Obligations.EdgeWaitStepsComplete : Prop :=
  ∀ s : State, s.seqEnabled = true → s.pc ≠ 255 →
    (∃ t, exec .wfe s = .next t ∧
      (s.ack = true →
        runEvents [.seq, .ack false, .seq, .seq] t = .next { s with ack := false, pc := s.pc + 1, todo := [] }) ∧
      (s.ack = false → seqStep t = .next t)) ∧
    (∃ t, exec .wre s = .next t ∧
      (s.ack = false →
        runEvents [.seq, .ack true, .seq, .seq] t = .next { s with ack := true, pc := s.pc + 1, todo := [] }) ∧
      (s.ack = true → seqStep t = .next t))

/-- The settled waits delay `d` ticks, then poll for the level; before the `d`-th tick they hold, whatever the line does
(R169, R170, R108, R109). -/
def Obligations.SettledWaitStepsComplete : Prop :=
  ∀ (s : State) (d : Byte), s.seqEnabled = true → s.pc ≠ 255 →
    (∃ t, exec (.wsl d) s = .next t ∧
      (s.ack = false → runEvents ([.seq] ++ List.replicate d.toNat .tick ++ seqs 3) t =
        .next { s with dly := 0, pc := s.pc + 1, todo := [] }) ∧
      ∀ j, j < d.toNat → ∃ u, runEvents ([.seq] ++ List.replicate j .tick) t = .next u ∧ seqStep u = .next u) ∧
    (∃ t, exec (.wsh d) s = .next t ∧
      (s.ack = true → runEvents ([.seq] ++ List.replicate d.toNat .tick ++ seqs 3) t =
        .next { s with dly := 0, pc := s.pc + 1, todo := [] }) ∧
      ∀ j, j < d.toNat → ∃ u, runEvents ([.seq] ++ List.replicate j .tick) t = .next u ∧ seqStep u = .next u)

/-- The delay steps complete after `c`, respectively `1000 * c`, ticks and hold before (R176, R177, R104). -/
def Obligations.DelayStepsComplete : Prop :=
  ∀ (s : State) (c : BitVec 12), s.seqEnabled = true → s.pc ≠ 255 →
    (∃ t, exec (.dlyu c) s = .next t ∧
      runEvents ([.seq] ++ List.replicate c.toNat .tick ++ seqs 2) t =
        .next { s with dly := 0, pc := s.pc + 1, todo := [] } ∧
      ∀ j, j < c.toNat → ∃ u, runEvents ([.seq] ++ List.replicate j .tick) t = .next u ∧ seqStep u = .next u) ∧
    (∃ t, exec (.dlym c) s = .next t ∧
      runEvents ([.seq] ++ List.replicate (1000 * c.toNat) .tick ++ seqs 2) t =
        .next { s with dly := 0, pc := s.pc + 1, todo := [] } ∧
      ∀ j, j < 1000 * c.toNat → ∃ u, runEvents ([.seq] ++ List.replicate j .tick) t = .next u ∧ seqStep u = .next u)

/-- `RAWB v`: PEER samples the eight bits of `v` LSB first; afterwards the line is released, the sentinel is in `SR`, the
flag is clear, and `RDY`, `CSUM`, `BYTE`, `RXBUF` are as they were (R174, R131). -/
def Obligations.RawByteStepCompletes : Prop :=
  ∀ (s : State) (v : Byte), s.seqEnabled = true → s.pc ≠ 255 → s.en = true → s.clk = true → s.bitcnt = 0 →
    (s.tc = false ∨ v ≠ 0) →
    ∃ t u, exec (.rawb v) s = .next t ∧ runEvents (seqs 2 ++ clockByte ++ seqs 4) t = .next u ∧
      sampledBits (seqs 2 ++ clockByte ++ seqs 4) t = wireBits v ∧
      u.sr = Reg.known s.cfg.sent.val ∧ u.tc = false ∧ u.datOe = false ∧
      u = { s with
        sr := u.sr, tc := u.tc, datOe := u.datOe, dout := u.dout, pc := s.pc + 1, todo := []
        peerBit := u.peerBit, draws := u.draws }

/-- `RDF n` with PEER keeping its duties: the payload stands in `RXBUF`, the rest of `RXBUF` is untouched, PEER has
sampled the sum of the payload bytes, and the transport is idle again (R172, R145, R147, R149). -/
def Obligations.ReadFrameStepCompletes : Prop :=
  ∀ (s : State) (bs : List Byte) (n : Byte), bs ≠ [] → bs.length = n.toNat → s.seqEnabled = true → s.pc ≠ 255 →
    s.en = true → s.clk = true → s.bitcnt = 0 → s.ack = true →
    ∃ t u, exec (.rdf n) s = .next t ∧ runEvents (readFrameEvents bs) t = .next u ∧
      (∀ j : Fin rxbufSize, u.rxEntry j = match bs[j.val]? with
        | some b => Reg.known b
        | none => s.rxEntry j) ∧
      u.csum = byteSum bs ∧ (sampledBits (readFrameEvents bs) t).drop (8 * bs.length) = wireBits (byteSum bs) ∧
      u.rdy = true ∧ u.datOe = false ∧ u.tc = false ∧ u.bitcnt = 0 ∧ u.sr = Reg.known s.cfg.sent.val ∧
      u.pc = s.pc + 1 ∧ u.todo = [] ∧ u.fault = 0 ∧ u.dly = s.dly

/-- `WRF k` with PEER keeping its duties: PEER samples the length, the payload bytes in order and their sum modulo 256,
`n + 2` bytes, each LSB first, whether or not PEER raises `ACK` before the bytes behind the length; a flag set at entry does
no harm where the length is not 0; `RXBUF` and `BYTE` are untouched (R173, R146, R147, R148, R242). -/
def Obligations.WriteFrameStepCompletes : Prop :=
  ∀ (s : State) (k : BitVec 4) (raised : List Bool), (s.payloadEntry k).usable = true →
    raised.length = (s.payloadEntry k).len.toNat + 1 → s.seqEnabled = true → s.pc ≠ 255 →
    s.en = true → s.clk = true → s.bitcnt = 0 → (s.tc = false ∨ (s.payloadEntry k).len ≠ 0) → s.ack = true →
    ∃ t u, exec (.wrf k) s = .next t ∧
      runEvents (writeFrameEvents s.cfg.tSettle raised) t = .next u ∧
      sampledBits (writeFrameEvents s.cfg.tSettle raised) t =
        (((s.payloadEntry k).len :: s.payload k) ++ [byteSum (s.payload k)]).flatMap wireBits ∧
      u.csum = byteSum (s.payload k) ∧
      u.rdy = true ∧ u.datOe = false ∧ u.tc = false ∧ u.bitcnt = 0 ∧ u.sr = Reg.known s.cfg.sent.val ∧
      u.pc = s.pc + 1 ∧ u.todo = [] ∧ u.fault = 0 ∧ u.dly = 0 ∧ u.rxbuf = s.rxbuf ∧ u.byte = s.byte

/-- `TRST` leaves the transport cleared and enabled whatever it was and whatever clock edges fall between its two
primitives; everything outside the transport is untouched (R178). -/
def Obligations.TransportResetStepCompletes : Prop :=
  ∀ (s : State) (es : List Event), s.seqEnabled = true → s.pc ≠ 255 → (∀ e ∈ es, isEdge e = true) →
    ∃ t u, exec .trst s = .next t ∧ runEvents ([.seq] ++ es ++ seqs 2) t = .next u ∧
      u.bitcnt = 0 ∧ u.tc = false ∧ u.datOe = false ∧ u.tcfg = 0x47 ∧
      u.sr = Reg.unspecified ∧ u.dout = Reg.unspecified ∧
      u = { s with
        sr := u.sr, dout := u.dout, bitcnt := u.bitcnt, tc := u.tc, en := true, datOe := u.datOe
        pc := s.pc + 1, todo := [], clk := u.clk, peerBit := u.peerBit, draws := u.draws }

/-- `STBY` reaches the good end of a run. No run without reset leaves that end, changes what the inspection ports show
(`PC`, `FAULT`, `FPC`, `RXBUF`), or writes anything but the pins, `DLY` where a delay was left, and, if PEER keeps clocking,
`SR`, `DO`, `BITCNT` and `TC` (R13, R205). With `DAT` released, as every script step leaves it
(DataLineIsAlwaysReleasedAgain), the wire shows no change either (R12, R179). -/
def Obligations.StandbyIsForEver : Prop :=
  ∀ s : State, s.seqEnabled = true →
    ∃ t, exec .stby s = .next t ∧ t = { s with todo := [.halt, .next] } ∧ t.endedWell = true ∧
      ∀ (es : List Event) (u : State), (∀ e ∈ es, isReset e = false) → runEvents es t = .next u →
        u.endedWell = true ∧ u.inspect = s.inspect ∧ (s.datOe = false → u.wire = s.wire) ∧
        (s.dly = 0 → u.dly = 0) ∧
        ((∀ e ∈ es, isEdge e = false) → u.sr = s.sr ∧ u.dout = s.dout ∧ u.bitcnt = s.bitcnt ∧ u.tc = s.tc) ∧
        u = { t with
          sr := u.sr, dout := u.dout, bitcnt := u.bitcnt, tc := u.tc, dly := u.dly
          pwr := u.pwr, ack := u.ack, clk := u.clk, peerBit := u.peerBit, draws := u.draws }

/-! ## The whole machine -/

/-- The invariants that steps keep hold right after reset. -/
def Obligations.InvariantAtReset : Prop := State.reset.Inv ∧ State.reset.releases ∧ State.reset.resetHeld

/-- Every step of every agent keeps the invariant: canonical tables, operands in range, `FAULT` a raised code
(R63, R103, R143, R191, R192). -/
def Obligations.StepKeepsInvariant : Prop :=
  ∀ s t : State, s.Inv → step s = .next t → t.Inv

/-- Under the invariant no step stops: every outcome is a next state, the faults of CORE included (R74, R193). -/
def Obligations.StepNeverStops : Prop :=
  ∀ s : State, s.Inv → ∃ t, step s = .next t

/-- No step writes the script, the payload tables or the parameters (R76, R212). -/
def Obligations.ConfigurationNeverChanges : Prop :=
  ∀ s t : State, step s = .next t → t.cfg = s.cfg

/-- `PC` advances strictly forward by one, at a `NEXT`, and is never revisited but through reset (R25, R162). -/
def Obligations.PcOnlyStepsForward : Prop :=
  ∀ (e : Event) (s t : State), act e s = .next t → e ≠ .rst true →
    t.pc = s.pc ∨ (trying e s (· == .next) ∧ s.pc.toNat < 255 ∧ t.pc.toNat = s.pc.toNat + 1)

/-- Who writes each register of R20; `PC` has a statement of its own (R21 to R23, R27 to R35). -/
def Obligations.RegistersHaveTheirWriters : Prop :=
  ∀ (e : Event) (s t : State), act e s = .next t → e ≠ .rst true →
    (t.rdy ≠ s.rdy → trying e s (· == .setrdy t.rdy)) ∧
    (t.byte ≠ s.byte → trying e s (· == .getb)) ∧
    (t.csum ≠ s.csum → trying e s fun p => p == .clrsum || p matches .acc _) ∧
    (t.rxbuf ≠ s.rxbuf → trying e s (· matches .stb _)) ∧
    (t.dly ≠ s.dly → e = .tick ∨ trying e s (· == .ldt t.dly)) ∧
    (t.tc ≠ s.tc → (∃ drv, e = .clkRise drv) ∨
      trying e s fun p => p == .clrtc || p == .getb || p == .toff || p matches .putb _) ∧
    (t.en ≠ s.en → trying e s fun p => p == .toff || p == .ton) ∧
    (t.datOe ≠ s.datOe → t.fault ≠ 0 ∨ trying e s fun p => p == .toff || p == .setdir t.datOe) ∧
    (t.sr ≠ s.sr → isEdge e = true ∨ trying e s fun p => p == .toff || p matches .putb _) ∧
    (t.dout ≠ s.dout → e = .clkFall ∨ trying e s (· == .toff)) ∧
    (t.bitcnt ≠ s.bitcnt → (∃ drv, e = .clkRise drv) ∨ trying e s (· == .toff)) ∧
    (t.fault ≠ s.fault → e = .seq ∧ s.fault = 0 ∧ t.fpc = Reg.known s.pc) ∧
    (t.fpc ≠ s.fpc → t.fault ≠ 0) ∧
    (t.todo ≠ s.todo → e = .seq)

/-- Every step keeps: what is left of the current script step ends with the data line released, so that CORE drives `DAT`
only between the `SETDIR 1` and the `SETDIR 0` of a byte it writes (R30, R232). -/
def Obligations.DataLineIsAlwaysReleasedAgain : Prop :=
  (∀ s t : State, s.releases → step s = .next t → t.releases) ∧
  (∀ s : State, s.releases → s.todo = [] → s.datOe = false)

/-- A well-formed script never faults, under any interleaving (R195): every step keeps that the script runs without fault
at or before its first `STBY`, its start is such a state, and so no run from its start has a fault. -/
def Obligations.WellFormedScriptNeverFaults : Prop :=
  (∀ s t : State, s.OnScript → step s = .next t → t.OnScript) ∧
  (∀ s : State, scriptWellFormed s.cfg = true → s.pc = 0 → s.todo = [] → s.fault = 0 → s.OnScript) ∧
  (∀ (s t : State) (k : Nat), scriptWellFormed s.cfg = true → s.pc = 0 → s.todo = [] → s.fault = 0 →
    Sys2Proof.core.run k s = .next t → t.fault = 0)

/-- Every step keeps: while a read frame is under way the accumulator is the sum modulo 256 of the bytes stored so far. So
when the frame is about to reply, in any run and under any interleaving, it is the sum of all `n` (R145, R147). -/
def Obligations.ReadFrameChecksumLaw : Prop :=
  (∀ s t : State, s.readSums → step s = .next t → t.readSums) ∧
  (∀ s : State, s.todo = [] → s.readSums) ∧
  (∀ (s t : State) (k : Nat) (n : Byte), s.todo = [] → Sys2Proof.core.run k s = .next t →
    decode t.scriptWord = .ok (.rdf n) → t.todo = writeByte .csumr ++ [.next] →
    ∃ bs : List Byte, bs.length = n.toNat ∧
      (∀ (j : Fin rxbufSize) (b : Byte), bs[j.val]? = some b → t.rxEntry j = Reg.known b) ∧ t.csum = byteSum bs)

/-- Every step keeps: while a written frame is under way, what it has still to add brings the accumulator to the sum modulo
256 of the payload bytes. So when it is about to send its checksum, in any run and under any interleaving, the accumulator
is that sum, the length byte excluded (R146, R147). -/
def Obligations.WriteFrameChecksumLaw : Prop :=
  (∀ s t : State, s.writeSums → step s = .next t → t.writeSums) ∧
  (∀ s : State, s.todo = [] → s.writeSums) ∧
  (∀ (s t : State) (j : Nat) (k : BitVec 4), s.todo = [] → Sys2Proof.core.run j s = .next t →
    decode t.scriptWord = .ok (.wrf k) → t.todo = writeByte .csumr ++ [.next] →
    t.csum = byteSum (t.payload k))

/-- No received byte influences which step runs next: two states that agree but for the data the wire has carried go on
alike in everything that steers SEQ and in the ready line; the flag too, unless a `PUTB` writes the checksum or the byte
latch, whose value may be 0 in one of them and not in the other (R76, R164, R127). -/
def Obligations.ReceivedDataNeverSteers : Prop :=
  ∀ (e : Event) (s t s' : State), sameButData s t → act e s = .next s' →
    ∃ t', act e t = .next t' ∧ t'.pc = s'.pc ∧ t'.todo = s'.todo ∧ t'.fault = s'.fault ∧ t'.fpc = s'.fpc ∧
      t'.rdy = s'.rdy ∧ t'.datOe = s'.datOe ∧ t'.dly = s'.dly ∧ t'.en = s'.en ∧ t'.bitcnt = s'.bitcnt ∧
      (t'.tc = s'.tc ∨ trying e s fun p => p == .putb .csumr || p == .putb .byte)

/-- The reference script is well-formed and follows the document's session, for every choice of its open durations and
of the payload bytes, with payloads of lengths 5 and 21 (R181, R182). -/
def Obligations.ReferenceScriptConforms : Prop :=
  ∀ (c : Config) (announce pause1 pause2 : BitVec 12),
    c.script = layScript (refSteps announce pause1 pause2) 0 → c.pdir = [(0, ⟨0, 5⟩), (1, ⟨5, 21⟩)] →
    scriptSteps c = some (refSteps announce pause1 pause2) ∧ conforms c = true

/-- In a fair execution SEQ stands for ever only at `HALT`, at a `WAITL` whose line is again and again not at the level, or at
a `WAITTC` whose flag is again and again clear; a `WAITT` always completes (R11, R104, R198, R220). -/
def Obligations.FairExecutionsHangOnPeerOnly : Prop :=
  (∀ (ev : Nat → Event) (r : Nat → State) (n : Nat) (p : Prim), isExecution ev r → Fair ev r → standsAt r n p →
    p = .halt ∨
    (p = .waittc ∧ ∀ k, ∃ m, k ≤ m ∧ (r m).tc = false) ∨
    ∃ l v, p = .waitl l v ∧ ∀ k, ∃ m, k ≤ m ∧ (r m).level l ≠ v) ∧
  (∀ (ev : Nat → Event) (r : Nat → State) (n : Nat) (rest : List Prim), isExecution ev r → Fair ev r →
    (∀ m, n ≤ m → (r m).seqEnabled = true) → (r n).todo = .waitt :: rest →
    ∃ m, n ≤ m ∧ ev m = .seq ∧ (r m).todo = .waitt :: rest ∧ r (m + 1) = { r m with todo := rest })
end

