-- ==== Sys2Proof/Laws/Encoding.lean ====
section
/-! SUPPORT. Field extraction undoes field assembly and the other way round (R80, R81), and what each part of the decoder
accepts (R83 to R87). -/

namespace Sys2Proof

@[simp] theorem tag_wordOf (t s : BitVec 4) (a : Byte) : tagOf (wordOf t s a) = t := by
  ext i hi
  simp only [wordOf, tagOf, BitVec.getElem_extractLsb', BitVec.getLsbD_append]
  simp [show ¬ (12 + i < 8) by omega, show ¬ (4 + i < 4) by omega, show 12 + i - 8 = 4 + i by omega,
    BitVec.getLsbD_eq_getElem hi]

@[simp] theorem sub_wordOf (t s : BitVec 4) (a : Byte) : subOf (wordOf t s a) = s := by
  ext i hi
  simp only [wordOf, subOf, BitVec.getElem_extractLsb', BitVec.getLsbD_append]
  simp [show ¬ (8 + i < 8) by omega, hi]

@[simp] theorem arg_wordOf (t s : BitVec 4) (a : Byte) : argOf (wordOf t s a) = a := by
  ext i hi
  simp only [wordOf, argOf, BitVec.getElem_extractLsb', BitVec.getLsbD_append]
  simp [hi]

@[simp] theorem tag_wordOfOp (t : BitVec 4) (c : BitVec 12) : tagOf (wordOfOp t c) = t := by
  ext i hi
  simp only [wordOfOp, tagOf, BitVec.getElem_extractLsb', BitVec.getLsbD_append]
  simp [BitVec.getLsbD_eq_getElem hi]

@[simp] theorem op_wordOfOp (t : BitVec 4) (c : BitVec 12) : opOf (wordOfOp t c) = c := by
  ext i hi
  simp only [wordOfOp, opOf, BitVec.getElem_extractLsb', BitVec.getLsbD_append]
  simp [hi]

/-- A word is its three fields (R80). -/
theorem wordOf_fields (w : Word) : wordOf (tagOf w) (subOf w) (argOf w) = w := by
  refine BitVec.eq_of_getLsbD_eq fun i hi => ?_
  simp only [wordOf, tagOf, subOf, argOf, BitVec.getLsbD_append, BitVec.getLsbD_extractLsb']
  split
  · simp_all
  · split
    · simp [show i - 8 < 4 by omega, show 8 + (i - 8) = i by omega]
    · simp [show i - 8 - 4 < 4 by omega, show 12 + (i - 8 - 4) = i by omega]

/-- A word is its tag and its 12-bit operand (R80). -/
theorem wordOfOp_fields (w : Word) : wordOfOp (tagOf w) (opOf w) = w := by
  refine BitVec.eq_of_getLsbD_eq fun i hi => ?_
  simp only [wordOfOp, tagOf, opOf, BitVec.getLsbD_append, BitVec.getLsbD_extractLsb']
  split
  · simp_all
  · simp [show i - 12 < 4 by omega, show 12 + (i - 12) = i by omega]

/-- The operand is the sub-kind and the argument (R80: `OP = {SUB, ARG}`). -/
theorem op_eq_zero_iff (w : Word) : (opOf w) = 0 ↔ (subOf w) = 0 ∧ (argOf w) = 0 := by
  constructor
  · intro h
    have hb : ∀ i, i < 12 → w.getLsbD i = false := fun i hi => by
      have := congrArg (fun b => b.getLsbD i) h
      simpa [opOf, hi] using this
    refine ⟨BitVec.eq_of_getLsbD_eq fun i hi => ?_, BitVec.eq_of_getLsbD_eq fun i hi => ?_⟩
    · simp [subOf, hi, hb (8 + i) (by omega)]
    · simp [argOf, hi, hb i (by omega)]
  · rintro ⟨hs, ha⟩
    refine BitVec.eq_of_getLsbD_eq fun i hi => ?_
    by_cases h8 : i < 8
    · have := congrArg (fun b => b.getLsbD i) ha
      simpa [opOf, argOf, hi, h8] using this
    · have := congrArg (fun b => b.getLsbD (i - 8)) hs
      simpa [opOf, subOf, hi, show i - 8 < 4 by omega, show 8 + (i - 8) = i by omega] using this

/-- A checked step is accepted iff the check holds. -/
theorem checked_ok {c : Prop} [Decidable c] {i j : Instr} {why : IllegalWord} :
    (if c then Except.ok i else Except.error why) = .ok j ↔ c ∧ j = i := by
  split
  · rename_i h
    exact ⟨fun e => ⟨h, (Except.ok.inj e).symm⟩, fun e => by rw [e.2]⟩
  · rename_i h
    exact ⟨fun e => (by cases e), fun e => absurd e.1 h⟩

theorem decodeBare_ok {n : Nat} {i j : Instr} {z : BitVec n} : decodeBare i z = .ok j ↔ z = 0 ∧ j = i :=
  checked_ok

theorem decodeLevel_ok {mk : Bool → Instr} {a : Byte} {j : Instr} :
    decodeLevel mk a = .ok j ↔ a = levelArg (a.getLsbD 0) ∧ j = mk (a.getLsbD 0) := by
  have key : ∀ a : Byte, a.extractLsb' 1 7 = 0 ↔ a = levelArg (a.getLsbD 0) := by decide
  rw [← key a]
  exact checked_ok

theorem decodeSubZero_ok {s : BitVec 4} {r : Except IllegalWord Instr} {j : Instr} :
    decodeSubZero s r = .ok j ↔ s = 0 ∧ r = .ok j := by
  unfold decodeSubZero
  split <;> simp_all

theorem decodeWriteFrame_ok {a : Byte} {j : Instr} :
    decodeWriteFrame a = .ok j ↔ a = (a.extractLsb' 0 4).setWidth 8 ∧ j = .wrf (a.extractLsb' 0 4) := by
  have key : ∀ a : Byte, a.extractLsb' 4 4 = 0 ↔ a = (a.extractLsb' 0 4).setWidth 8 := by decide
  rw [← key a]
  exact checked_ok

end Sys2Proof
end

