-- ==== Sys2Proof/Laws/Memory.lean ====
section
/-! SUPPORT. Sparse tables: read after write, other indices alone, and the canonical form is kept by every operation. -/

namespace Sys2Proof

variable {α : Type}

@[simp] theorem Memory.lookup_nil (a : Nat) : Memory.lookup ([] : Memory α) a = none := rfl

/-- What a lookup finds is listed. -/
theorem Memory.lookup_mem {m : Memory α} {a : Nat} {v : α} (h : Memory.lookup m a = some v) : (a, v) ∈ m := by
  induction m with
  | nil => simp at h
  | cons cell rest ih =>
    obtain ⟨b, u⟩ := cell
    simp only [Memory.lookup] at h
    split at h
    · rename_i hb
      simp_all
    · exact List.mem_cons_of_mem _ (ih h)

/-- An index below every listed one is not listed. -/
theorem Memory.lookup_of_lt {m : Memory α} {a : Nat} (h : ∀ cell ∈ m, a < cell.1) : Memory.lookup m a = none := by
  cases hl : Memory.lookup m a with
  | none => rfl
  | some v => exact absurd (h _ (Memory.lookup_mem hl)) (Nat.lt_irrefl a)

@[simp] theorem Memory.lookup_insert_self (m : Memory α) (a : Nat) (v : α) :
    Memory.lookup (Memory.insert m a v) a = some v := by
  induction m with
  | nil => simp [Memory.insert, Memory.lookup]
  | cons cell rest ih =>
    obtain ⟨b, u⟩ := cell
    simp only [Memory.insert]
    split
    · simp [Memory.lookup]
    · split
      · simp [Memory.lookup]
      · simp [Memory.lookup, ih, Ne.symm ‹¬ a = b›]

theorem Memory.lookup_insert_ne (m : Memory α) {a c : Nat} (v : α) (h : c ≠ a) :
    Memory.lookup (Memory.insert m a v) c = Memory.lookup m c := by
  induction m with
  | nil => simp [Memory.insert, Memory.lookup, Ne.symm h]
  | cons cell rest ih =>
    obtain ⟨b, u⟩ := cell
    simp only [Memory.insert]
    split
    · simp [Memory.lookup, Ne.symm h]
    · split
      · subst_vars
        simp [Memory.lookup, Ne.symm h]
      · simp only [Memory.lookup, ih]

@[simp] theorem Memory.lookup_erase_self (m : Memory α) (a : Nat) : Memory.lookup (Memory.erase m a) a = none := by
  cases hl : Memory.lookup (Memory.erase m a) a with
  | none => rfl
  | some v => simpa [Memory.erase] using Memory.lookup_mem hl

theorem Memory.lookup_erase_ne (m : Memory α) {a c : Nat} (h : c ≠ a) :
    Memory.lookup (Memory.erase m a) c = Memory.lookup m c := by
  induction m with
  | nil => rfl
  | cons cell rest ih =>
    obtain ⟨b, u⟩ := cell
    by_cases hb : b = a
    · have hc : ¬ b = c := fun hbc => h (hbc.symm.trans hb)
      rw [show Memory.erase ((b, u) :: rest) a = Memory.erase rest a by simp [Memory.erase, hb], ih]
      simp [Memory.lookup, hc]
    · rw [show Memory.erase ((b, u) :: rest) a = (b, u) :: Memory.erase rest a by simp [Memory.erase, hb]]
      simp only [Memory.lookup, ih]

/-- A table reads as what was put there. -/
theorem Memory.getD_put_self [DecidableEq α] (dflt : α) (m : Memory α) (a : Nat) (v : α) :
    (Memory.lookup (Memory.put dflt m a v) a).getD dflt = v := by
  unfold Memory.put
  split
  · simp_all
  · simp

/-- A put leaves every other index alone. -/
theorem Memory.lookup_put_ne [DecidableEq α] (dflt : α) (m : Memory α) {a c : Nat} (v : α) (h : c ≠ a) :
    Memory.lookup (Memory.put dflt m a v) c = Memory.lookup m c := by
  unfold Memory.put
  split
  · exact Memory.lookup_erase_ne m h
  · exact Memory.lookup_insert_ne m v h

/-- What an insertion lists is what was listed, or the new pair. -/
theorem Memory.mem_insert {m : Memory α} {a : Nat} {v : α} {cell : Nat × α} (h : cell ∈ Memory.insert m a v) :
    cell = (a, v) ∨ cell ∈ m := by
  induction m with
  | nil => simpa [Memory.insert] using h
  | cons first rest ih =>
    obtain ⟨b, u⟩ := first
    simp only [Memory.insert] at h
    split at h
    · simpa using h
    · split at h
      · rcases List.mem_cons.1 h with h | h
        · exact .inl h
        · exact .inr (List.mem_cons_of_mem _ h)
      · rcases List.mem_cons.1 h with h | h
        · exact .inr (h ▸ List.mem_cons_self)
        · exact (ih h).imp id (List.mem_cons_of_mem _)

/-- An insertion keeps the indices rising. -/
theorem Memory.insert_rising {m : Memory α} (h : m.Pairwise fun p q => p.1 < q.1) (a : Nat) (v : α) :
    (Memory.insert m a v).Pairwise fun p q => p.1 < q.1 := by
  induction m with
  | nil => simp [Memory.insert]
  | cons first rest ih =>
    obtain ⟨b, u⟩ := first
    obtain ⟨hb, hr⟩ := List.pairwise_cons.1 h
    simp only [Memory.insert]
    split
    · rename_i hab
      refine List.pairwise_cons.2 ⟨fun q hq => ?_, h⟩
      rcases List.mem_cons.1 hq with rfl | hq
      · exact hab
      · exact Nat.lt_trans hab (hb q hq)
    · split
      · rename_i hab
        subst hab
        exact List.pairwise_cons.2 ⟨hb, hr⟩
      · refine List.pairwise_cons.2 ⟨fun q hq => ?_, ih hr⟩
        rcases Memory.mem_insert hq with rfl | hq
        · simp only; omega
        · exact hb q hq

/-- Writing keeps the canonical form. -/
theorem Memory.insert_wf {size : Nat} {listed : α → Bool} {m : Memory α} (h : Memory.wf size listed m) {a : Nat} {v : α}
    (ha : a < size) (hv : listed v = true) : Memory.wf size listed (Memory.insert m a v) := by
  refine ⟨Memory.insert_rising h.1 a v, fun cell hc => ?_⟩
  rcases Memory.mem_insert hc with rfl | hc
  · exact ⟨ha, hv⟩
  · exact h.2 cell hc

/-- Erasing keeps the canonical form. -/
theorem Memory.erase_wf {size : Nat} {listed : α → Bool} {m : Memory α} (h : Memory.wf size listed m) (a : Nat) :
    Memory.wf size listed (Memory.erase m a) :=
  ⟨h.1.filter _, fun cell hc => h.2 cell (List.mem_of_mem_filter hc)⟩

/-- Putting an element keeps the canonical form of a table that lists no default element. -/
theorem Memory.put_wf [DecidableEq α] {size : Nat} {dflt : α} {m : Memory α}
    (h : Memory.wf size (fun v => v != dflt) m) {a : Nat} (v : α) (ha : a < size) :
    Memory.wf size (fun v => v != dflt) (Memory.put dflt m a v) := by
  unfold Memory.put
  split
  · exact Memory.erase_wf h a
  · exact Memory.insert_wf h ha (by simpa using ‹¬ v = dflt›)

end Sys2Proof
end

