-- ==== Sys2Proof/Laws/Ops.lean ====
section
/-! SUPPORT. Registers with unspecified bits, cause codes, and the tables of the spaces. -/

namespace Sys2Proof.Machine

/-! ## Registers -/

@[simp] theorem Reg.known_bits {w : Nat} (v : BitVec w) : (Reg.known v).bits = v := rfl
@[simp] theorem Reg.known_unspec {w : Nat} (v : BitVec w) : (Reg.known v).unspec = 0 := rfl

/-- Bit by bit, a reading is the register where it is specified and the draw where it is not. -/
theorem Reg.read_eq {w : Nat} (r : Reg w) (d : BitVec w) :
    r.read d = (r.bits &&& ~~~r.unspec) ||| (d &&& r.unspec) := by
  unfold Reg.read
  split
  · rename_i h
    ext i
    simp [h]
  · rfl

/-- A known register reads as its value, whatever is drawn. -/
@[simp] theorem Reg.read_known {w : Nat} (v d : BitVec w) : (Reg.known v).read d = v := if_pos rfl

/-- An unspecified register reads as whatever is drawn. -/
@[simp] theorem Reg.read_unspecified {w : Nat} (d : BitVec w) : (Reg.unspecified : Reg w).read d = d := by
  rw [Reg.read_eq]
  ext i
  simp [Reg.unspecified]

theorem Reg.known_wf {w : Nat} (v : BitVec w) : (Reg.known v).wf := by simp [Reg.wf, Reg.known]

theorem Reg.unspecified_wf {w : Nat} : (Reg.unspecified : Reg w).wf := by simp [Reg.wf, Reg.unspecified]

@[simp] theorem Reg.known_inj {w : Nat} (u v : BitVec w) : Reg.known u = Reg.known v ↔ u = v := by
  simp [Reg.known]

/-- Bit `i` after a shift is the bit above it before; bit 7 is the one that entered. -/
theorem Reg.shiftIn_bits (r : Reg 8) (b : Bool) (i : Nat) (hi : i < 8) :
    (r.shiftIn b).bits.getLsbD i = if i = 7 then b else r.bits.getLsbD (i + 1) := by
  simp only [Reg.shiftIn, BitVec.getLsbD_cons]
  split
  · rfl
  · have h7 : i < 7 := by omega
    simp [h7, Nat.add_comm 1 i]

/-- The bit that entered is specified; the other marks move down. -/
theorem Reg.shiftIn_unspec (r : Reg 8) (b : Bool) (i : Nat) (hi : i < 8) :
    (r.shiftIn b).unspec.getLsbD i = if i = 7 then false else r.unspec.getLsbD (i + 1) := by
  simp only [Reg.shiftIn, BitVec.getLsbD_cons]
  split
  · rfl
  · have h7 : i < 7 := by omega
    simp [h7, Nat.add_comm 1 i]

/-- Shifting a known register leaves it known. -/
theorem Reg.shiftIn_known (v : Byte) (b : Bool) :
    (Reg.known v).shiftIn b = Reg.known (BitVec.cons b (v.extractLsb' 1 7)) := by
  simp [Reg.shiftIn, Reg.known]

theorem Reg.shiftIn_wf {r : Reg 8} (h : r.wf) (b : Bool) : (r.shiftIn b).wf := by
  refine BitVec.eq_of_getLsbD_eq fun i hi => ?_
  rw [BitVec.getLsbD_and, Reg.shiftIn_bits r b i hi, Reg.shiftIn_unspec r b i hi]
  split
  · simp
  · rw [← BitVec.getLsbD_and, h]
    simp

/-! ## Cause codes and the flag -/

theorem FaultCode.code_ne_zero (c : FaultCode) : c.code ≠ 0 := by cases c <;> decide

theorem FaultCode.code_le (c : FaultCode) : c.code.toNat ≤ 4 := by cases c <;> decide

@[simp] theorem tcAfterWrite_of_ne {v : Byte} (h : v ≠ 0) (tc draw : Bool) : tcAfterWrite v tc draw = false := by
  exact if_neg h

@[simp] theorem tcAfterWrite_of_clear (v : Byte) (draw : Bool) : tcAfterWrite v false draw = false := by
  simp [tcAfterWrite]

theorem bitcntAfterRise_toNat (n : BitVec 3) : (bitcntAfterRise n).toNat = (n.toNat + 1) % 8 := by
  revert n
  decide

theorem tcAfterRise_iff (n : BitVec 3) (tc : Bool) : tcAfterRise n tc = true ↔ n = 7 ∨ tc = true := by
  unfold tcAfterRise
  split <;> simp_all

/-! ## Spaces -/

/-- The entries of `RXBUF` depend on the field `rxbuf` alone. -/
theorem State.rxEntry_congr {s t : State} (h : t.rxbuf = s.rxbuf) (j : Fin rxbufSize) : t.rxEntry j = s.rxEntry j := by
  simp [State.rxEntry, h]

/-- A write to `RXBUF` makes the entry known and leaves every other entry alone. -/
theorem State.rxEntry_rxWrite (s : State) (i v : Byte) (j : Fin rxbufSize) :
    (s.rxWrite i v).rxEntry j = if j.val = i.toNat then Reg.known v else s.rxEntry j := by
  by_cases h : j.val = i.toNat
  · simp [State.rxEntry, State.rxWrite, h]
  · simp [State.rxEntry, State.rxWrite, h, Memory.lookup_insert_ne _ v h]

/-- Reading a port moves nothing but the model's own draw counter (R204). -/
theorem State.readPort_keeps (s : State) (p : Port) :
    (s.readPort p).2 = { s with draws := (s.readPort p).2.draws } := by
  cases p <;> rfl

theorem State.rxWrite_wf {s : State} (h : Memory.wf rxbufSize (fun _ => true) s.rxbuf) {i : Byte} (v : Byte)
    (hi : i.toNat < rxbufSize) : Memory.wf rxbufSize (fun _ => true) (s.rxWrite i v).rxbuf :=
  Memory.insert_wf h hi rfl

/-- Laying a step word keeps the script ROM in its canonical form. -/
theorem State.placeWord_wf {s : State} (h : Memory.wf 256 (fun w => w != erasedWord) s.cfg.script) (w : Word) :
    Memory.wf 256 (fun w => w != erasedWord) (s.placeWord w).cfg.script :=
  Memory.put_wf h w s.pc.isLt

/-- Right after reset every table is in its canonical form: nothing is listed. -/
theorem State.reset_tables_wf :
    Memory.wf rxbufSize (fun _ => true) State.reset.rxbuf ∧
    Memory.wf 256 (fun w => w != erasedWord) State.reset.cfg.script ∧
    Memory.wf 16 (fun e => e != unusedEntry) State.reset.cfg.pdir ∧
    Memory.wf 256 (fun v => v != erasedByte) State.reset.cfg.prom := by
  refine ⟨⟨.nil, ?_⟩, ⟨.nil, ?_⟩, ⟨.nil, ?_⟩, ⟨.nil, ?_⟩⟩ <;> intro c hc <;> cases hc

end Sys2Proof.Machine
end

