-- ==== Sys2Proof/Laws/PerInstr.lean ====
section
/-! SUPPORT. Statements made per instruction: the word of a step lies in the step's own row of the opcode map (R82). -/

namespace Sys2Proof

/-- The encoded word lies in the row the opcode map gives the step (R82). -/
def Laws.EncodingRow.Statement (i : Instr) : Prop := i.row.has (encode i) = true

theorem Laws.EncodingRow.wlvAck (v : Bool) : Laws.EncodingRow.Statement (.wlvAck v) := by cases v <;> rfl

theorem Laws.EncodingRow.wlvPwr (v : Bool) : Laws.EncodingRow.Statement (.wlvPwr v) := by cases v <;> rfl

theorem Laws.EncodingRow.wfe : Laws.EncodingRow.Statement .wfe := rfl

theorem Laws.EncodingRow.wre : Laws.EncodingRow.Statement .wre := rfl

/-- The operand is under no mask bit: a word of tag and sub-kind alone has the row's value. -/
theorem wordOf_row (t s : BitVec 4) (a : Byte) : wordOf t s a &&& 0xFF00 = wordOf t s 0 := by
  refine BitVec.eq_of_getLsbD_eq fun i hi => ?_
  rw [BitVec.getLsbD_and]
  simp only [wordOf, BitVec.getLsbD_append]
  have hm : ∀ i, i < 16 → (0xFF00 : Word).getLsbD i = decide (8 ≤ i) := by decide
  rw [hm i hi]
  split
  · simp [show ¬ 8 ≤ i by omega]
  · simp [show 8 ≤ i by omega]

/-- The 12-bit operand is under no mask bit. -/
theorem wordOfOp_row (t : BitVec 4) (c : BitVec 12) : wordOfOp t c &&& 0xF000 = wordOfOp t 0 := by
  refine BitVec.eq_of_getLsbD_eq fun i hi => ?_
  rw [BitVec.getLsbD_and]
  simp only [wordOfOp, BitVec.getLsbD_append]
  have hm : ∀ i, i < 16 → (0xF000 : Word).getLsbD i = decide (12 ≤ i) := by decide
  rw [hm i hi]
  split
  · simp [show ¬ 12 ≤ i by omega]
  · simp [show 12 ≤ i by omega]

theorem Laws.EncodingRow.wsl (d : Byte) : Laws.EncodingRow.Statement (.wsl d) := beq_iff_eq.2 (wordOf_row 1 4 d)

theorem Laws.EncodingRow.wsh (d : Byte) : Laws.EncodingRow.Statement (.wsh d) := beq_iff_eq.2 (wordOf_row 1 5 d)

theorem Laws.EncodingRow.rdyl : Laws.EncodingRow.Statement .rdyl := rfl

theorem Laws.EncodingRow.rdyh : Laws.EncodingRow.Statement .rdyh := rfl

theorem Laws.EncodingRow.rdyt : Laws.EncodingRow.Statement .rdyt := rfl

theorem Laws.EncodingRow.rdf (n : Byte) : Laws.EncodingRow.Statement (.rdf n) := beq_iff_eq.2 (wordOf_row 3 0 n)

theorem Laws.EncodingRow.wrf (k : BitVec 4) : Laws.EncodingRow.Statement (.wrf k) := by
  revert k
  unfold Laws.EncodingRow.Statement
  decide

theorem Laws.EncodingRow.rawb (v : Byte) : Laws.EncodingRow.Statement (.rawb v) := beq_iff_eq.2 (wordOf_row 5 0 v)

theorem Laws.EncodingRow.dlyu (c : BitVec 12) : Laws.EncodingRow.Statement (.dlyu c) := beq_iff_eq.2 (wordOfOp_row 6 c)

theorem Laws.EncodingRow.dlym (c : BitVec 12) : Laws.EncodingRow.Statement (.dlym c) := beq_iff_eq.2 (wordOfOp_row 7 c)

theorem Laws.EncodingRow.trst : Laws.EncodingRow.Statement .trst := rfl

theorem Laws.EncodingRow.stby : Laws.EncodingRow.Statement .stby := rfl

end Sys2Proof
end

