-- ==== Sys2Proof/Laws/State.lean ====
section
/-! SUPPORT. One lemma per field per named update of State. -/

namespace Sys2Proof.Machine

/-! `State.load`: the fetch of a legal step writes `TODO` only (R160). -/

@[simp] theorem State.load_sr (s : State) (l : List Prim) : (s.load l).sr = s.sr := rfl
@[simp] theorem State.load_dout (s : State) (l : List Prim) : (s.load l).dout = s.dout := rfl
@[simp] theorem State.load_bitcnt (s : State) (l : List Prim) : (s.load l).bitcnt = s.bitcnt := rfl
@[simp] theorem State.load_tc (s : State) (l : List Prim) : (s.load l).tc = s.tc := rfl
@[simp] theorem State.load_en (s : State) (l : List Prim) : (s.load l).en = s.en := rfl
@[simp] theorem State.load_datOe (s : State) (l : List Prim) : (s.load l).datOe = s.datOe := rfl
@[simp] theorem State.load_rdy (s : State) (l : List Prim) : (s.load l).rdy = s.rdy := rfl
@[simp] theorem State.load_dly (s : State) (l : List Prim) : (s.load l).dly = s.dly := rfl
@[simp] theorem State.load_byte (s : State) (l : List Prim) : (s.load l).byte = s.byte := rfl
@[simp] theorem State.load_csum (s : State) (l : List Prim) : (s.load l).csum = s.csum := rfl
@[simp] theorem State.load_rxbuf (s : State) (l : List Prim) : (s.load l).rxbuf = s.rxbuf := rfl
@[simp] theorem State.load_pc (s : State) (l : List Prim) : (s.load l).pc = s.pc := rfl
@[simp] theorem State.load_todo (s : State) (l : List Prim) : (s.load l).todo = l ++ [.next] := rfl
@[simp] theorem State.load_fault (s : State) (l : List Prim) : (s.load l).fault = s.fault := rfl
@[simp] theorem State.load_fpc (s : State) (l : List Prim) : (s.load l).fpc = s.fpc := rfl
@[simp] theorem State.load_cfg (s : State) (l : List Prim) : (s.load l).cfg = s.cfg := rfl
@[simp] theorem State.load_pwr (s : State) (l : List Prim) : (s.load l).pwr = s.pwr := rfl
@[simp] theorem State.load_ack (s : State) (l : List Prim) : (s.load l).ack = s.ack := rfl
@[simp] theorem State.load_clk (s : State) (l : List Prim) : (s.load l).clk = s.clk := rfl
@[simp] theorem State.load_rst (s : State) (l : List Prim) : (s.load l).rst = s.rst := rfl
@[simp] theorem State.load_peerBit (s : State) (l : List Prim) : (s.load l).peerBit = s.peerBit := rfl
@[simp] theorem State.load_queue (s : State) (l : List Prim) : (s.load l).queue = s.queue := rfl
@[simp] theorem State.load_draws (s : State) (l : List Prim) : (s.load l).draws = s.draws := rfl

/-! `State.raise`: `TRAP` writes `FAULT`, `FPC`, `DAT_OE` and `TODO` only (R193). -/

@[simp] theorem State.raise_sr (s : State) (c : FaultCode) : (s.raise c).sr = s.sr := rfl
@[simp] theorem State.raise_dout (s : State) (c : FaultCode) : (s.raise c).dout = s.dout := rfl
@[simp] theorem State.raise_bitcnt (s : State) (c : FaultCode) : (s.raise c).bitcnt = s.bitcnt := rfl
@[simp] theorem State.raise_tc (s : State) (c : FaultCode) : (s.raise c).tc = s.tc := rfl
@[simp] theorem State.raise_en (s : State) (c : FaultCode) : (s.raise c).en = s.en := rfl
@[simp] theorem State.raise_datOe (s : State) (c : FaultCode) : (s.raise c).datOe = false := rfl
@[simp] theorem State.raise_rdy (s : State) (c : FaultCode) : (s.raise c).rdy = s.rdy := rfl
@[simp] theorem State.raise_dly (s : State) (c : FaultCode) : (s.raise c).dly = s.dly := rfl
@[simp] theorem State.raise_byte (s : State) (c : FaultCode) : (s.raise c).byte = s.byte := rfl
@[simp] theorem State.raise_csum (s : State) (c : FaultCode) : (s.raise c).csum = s.csum := rfl
@[simp] theorem State.raise_rxbuf (s : State) (c : FaultCode) : (s.raise c).rxbuf = s.rxbuf := rfl
@[simp] theorem State.raise_pc (s : State) (c : FaultCode) : (s.raise c).pc = s.pc := rfl
@[simp] theorem State.raise_todo (s : State) (c : FaultCode) : (s.raise c).todo = [] := rfl
@[simp] theorem State.raise_fault (s : State) (c : FaultCode) : (s.raise c).fault = c.code := rfl
@[simp] theorem State.raise_fpc (s : State) (c : FaultCode) : (s.raise c).fpc = Reg.known s.pc := rfl
@[simp] theorem State.raise_cfg (s : State) (c : FaultCode) : (s.raise c).cfg = s.cfg := rfl
@[simp] theorem State.raise_pwr (s : State) (c : FaultCode) : (s.raise c).pwr = s.pwr := rfl
@[simp] theorem State.raise_ack (s : State) (c : FaultCode) : (s.raise c).ack = s.ack := rfl
@[simp] theorem State.raise_clk (s : State) (c : FaultCode) : (s.raise c).clk = s.clk := rfl
@[simp] theorem State.raise_rst (s : State) (c : FaultCode) : (s.raise c).rst = s.rst := rfl
@[simp] theorem State.raise_peerBit (s : State) (c : FaultCode) : (s.raise c).peerBit = s.peerBit := rfl
@[simp] theorem State.raise_queue (s : State) (c : FaultCode) : (s.raise c).queue = s.queue := rfl
@[simp] theorem State.raise_draws (s : State) (c : FaultCode) : (s.raise c).draws = s.draws := rfl

/-! `State.passDraws`: passing free values touches no state of CORE. -/

@[simp] theorem State.passDraws_sr (s : State) (n : Nat) : (s.passDraws n).sr = s.sr := rfl
@[simp] theorem State.passDraws_dout (s : State) (n : Nat) : (s.passDraws n).dout = s.dout := rfl
@[simp] theorem State.passDraws_bitcnt (s : State) (n : Nat) : (s.passDraws n).bitcnt = s.bitcnt := rfl
@[simp] theorem State.passDraws_tc (s : State) (n : Nat) : (s.passDraws n).tc = s.tc := rfl
@[simp] theorem State.passDraws_en (s : State) (n : Nat) : (s.passDraws n).en = s.en := rfl
@[simp] theorem State.passDraws_datOe (s : State) (n : Nat) : (s.passDraws n).datOe = s.datOe := rfl
@[simp] theorem State.passDraws_rdy (s : State) (n : Nat) : (s.passDraws n).rdy = s.rdy := rfl
@[simp] theorem State.passDraws_dly (s : State) (n : Nat) : (s.passDraws n).dly = s.dly := rfl
@[simp] theorem State.passDraws_byte (s : State) (n : Nat) : (s.passDraws n).byte = s.byte := rfl
@[simp] theorem State.passDraws_csum (s : State) (n : Nat) : (s.passDraws n).csum = s.csum := rfl
@[simp] theorem State.passDraws_rxbuf (s : State) (n : Nat) : (s.passDraws n).rxbuf = s.rxbuf := rfl
@[simp] theorem State.passDraws_pc (s : State) (n : Nat) : (s.passDraws n).pc = s.pc := rfl
@[simp] theorem State.passDraws_todo (s : State) (n : Nat) : (s.passDraws n).todo = s.todo := rfl
@[simp] theorem State.passDraws_fault (s : State) (n : Nat) : (s.passDraws n).fault = s.fault := rfl
@[simp] theorem State.passDraws_fpc (s : State) (n : Nat) : (s.passDraws n).fpc = s.fpc := rfl
@[simp] theorem State.passDraws_cfg (s : State) (n : Nat) : (s.passDraws n).cfg = s.cfg := rfl
@[simp] theorem State.passDraws_pwr (s : State) (n : Nat) : (s.passDraws n).pwr = s.pwr := rfl
@[simp] theorem State.passDraws_ack (s : State) (n : Nat) : (s.passDraws n).ack = s.ack := rfl
@[simp] theorem State.passDraws_clk (s : State) (n : Nat) : (s.passDraws n).clk = s.clk := rfl
@[simp] theorem State.passDraws_rst (s : State) (n : Nat) : (s.passDraws n).rst = s.rst := rfl
@[simp] theorem State.passDraws_peerBit (s : State) (n : Nat) : (s.passDraws n).peerBit = s.peerBit := rfl
@[simp] theorem State.passDraws_queue (s : State) (n : Nat) : (s.passDraws n).queue = s.queue := rfl
@[simp] theorem State.passDraws_draws (s : State) (n : Nat) : (s.passDraws n).draws = s.draws + n := rfl

/-! `State.rxWrite`: `MemWrite(RXBUF, i, 1, v)` writes `RXBUF` only (R74). -/

@[simp] theorem State.rxWrite_sr (s : State) (i v : Byte) : (s.rxWrite i v).sr = s.sr := rfl
@[simp] theorem State.rxWrite_dout (s : State) (i v : Byte) : (s.rxWrite i v).dout = s.dout := rfl
@[simp] theorem State.rxWrite_bitcnt (s : State) (i v : Byte) : (s.rxWrite i v).bitcnt = s.bitcnt := rfl
@[simp] theorem State.rxWrite_tc (s : State) (i v : Byte) : (s.rxWrite i v).tc = s.tc := rfl
@[simp] theorem State.rxWrite_en (s : State) (i v : Byte) : (s.rxWrite i v).en = s.en := rfl
@[simp] theorem State.rxWrite_datOe (s : State) (i v : Byte) : (s.rxWrite i v).datOe = s.datOe := rfl
@[simp] theorem State.rxWrite_rdy (s : State) (i v : Byte) : (s.rxWrite i v).rdy = s.rdy := rfl
@[simp] theorem State.rxWrite_dly (s : State) (i v : Byte) : (s.rxWrite i v).dly = s.dly := rfl
@[simp] theorem State.rxWrite_byte (s : State) (i v : Byte) : (s.rxWrite i v).byte = s.byte := rfl
@[simp] theorem State.rxWrite_csum (s : State) (i v : Byte) : (s.rxWrite i v).csum = s.csum := rfl
@[simp] theorem State.rxWrite_rxbuf (s : State) (i v : Byte) : (s.rxWrite i v).rxbuf = Memory.insert s.rxbuf i.toNat v := rfl
@[simp] theorem State.rxWrite_pc (s : State) (i v : Byte) : (s.rxWrite i v).pc = s.pc := rfl
@[simp] theorem State.rxWrite_todo (s : State) (i v : Byte) : (s.rxWrite i v).todo = s.todo := rfl
@[simp] theorem State.rxWrite_fault (s : State) (i v : Byte) : (s.rxWrite i v).fault = s.fault := rfl
@[simp] theorem State.rxWrite_fpc (s : State) (i v : Byte) : (s.rxWrite i v).fpc = s.fpc := rfl
@[simp] theorem State.rxWrite_cfg (s : State) (i v : Byte) : (s.rxWrite i v).cfg = s.cfg := rfl
@[simp] theorem State.rxWrite_pwr (s : State) (i v : Byte) : (s.rxWrite i v).pwr = s.pwr := rfl
@[simp] theorem State.rxWrite_ack (s : State) (i v : Byte) : (s.rxWrite i v).ack = s.ack := rfl
@[simp] theorem State.rxWrite_clk (s : State) (i v : Byte) : (s.rxWrite i v).clk = s.clk := rfl
@[simp] theorem State.rxWrite_rst (s : State) (i v : Byte) : (s.rxWrite i v).rst = s.rst := rfl
@[simp] theorem State.rxWrite_peerBit (s : State) (i v : Byte) : (s.rxWrite i v).peerBit = s.peerBit := rfl
@[simp] theorem State.rxWrite_queue (s : State) (i v : Byte) : (s.rxWrite i v).queue = s.queue := rfl
@[simp] theorem State.rxWrite_draws (s : State) (i v : Byte) : (s.rxWrite i v).draws = s.draws := rfl

/-! `State.enterReset`: reset gives every piece of CORE's state its reset value and keeps the rest (R210). -/

@[simp] theorem State.enterReset_sr (s : State) : s.enterReset.sr = ⟨0, 0xFF⟩ := rfl
@[simp] theorem State.enterReset_dout (s : State) : s.enterReset.dout = ⟨0, 0⟩ := rfl
@[simp] theorem State.enterReset_bitcnt (s : State) : s.enterReset.bitcnt = 0 := rfl
@[simp] theorem State.enterReset_tc (s : State) : s.enterReset.tc = false := rfl
@[simp] theorem State.enterReset_en (s : State) : s.enterReset.en = true := rfl
@[simp] theorem State.enterReset_datOe (s : State) : s.enterReset.datOe = false := rfl
@[simp] theorem State.enterReset_rdy (s : State) : s.enterReset.rdy = false := rfl
@[simp] theorem State.enterReset_dly (s : State) : s.enterReset.dly = 0 := rfl
@[simp] theorem State.enterReset_byte (s : State) : s.enterReset.byte = ⟨0, 0xFF⟩ := rfl
@[simp] theorem State.enterReset_csum (s : State) : s.enterReset.csum = 0 := rfl
@[simp] theorem State.enterReset_rxbuf (s : State) : s.enterReset.rxbuf = [] := rfl
@[simp] theorem State.enterReset_pc (s : State) : s.enterReset.pc = 0 := rfl
@[simp] theorem State.enterReset_todo (s : State) : s.enterReset.todo = [] := rfl
@[simp] theorem State.enterReset_fault (s : State) : s.enterReset.fault = 0 := rfl
@[simp] theorem State.enterReset_fpc (s : State) : s.enterReset.fpc = ⟨0, 0xFF⟩ := rfl
@[simp] theorem State.enterReset_cfg (s : State) : s.enterReset.cfg = s.cfg := rfl
@[simp] theorem State.enterReset_pwr (s : State) : s.enterReset.pwr = s.pwr := rfl
@[simp] theorem State.enterReset_ack (s : State) : s.enterReset.ack = s.ack := rfl
@[simp] theorem State.enterReset_clk (s : State) : s.enterReset.clk = s.clk := rfl
@[simp] theorem State.enterReset_rst (s : State) : s.enterReset.rst = true := rfl
@[simp] theorem State.enterReset_peerBit (s : State) : s.enterReset.peerBit = s.peerBit := rfl
@[simp] theorem State.enterReset_queue (s : State) : s.enterReset.queue = s.queue := rfl
@[simp] theorem State.enterReset_draws (s : State) : s.enterReset.draws = s.draws := rfl

/-! `State.leaveReset`: releasing `RST` changes no state of CORE (R210). -/

@[simp] theorem State.leaveReset_sr (s : State) : s.leaveReset.sr = s.sr := rfl
@[simp] theorem State.leaveReset_dout (s : State) : s.leaveReset.dout = s.dout := rfl
@[simp] theorem State.leaveReset_bitcnt (s : State) : s.leaveReset.bitcnt = s.bitcnt := rfl
@[simp] theorem State.leaveReset_tc (s : State) : s.leaveReset.tc = s.tc := rfl
@[simp] theorem State.leaveReset_en (s : State) : s.leaveReset.en = s.en := rfl
@[simp] theorem State.leaveReset_datOe (s : State) : s.leaveReset.datOe = s.datOe := rfl
@[simp] theorem State.leaveReset_rdy (s : State) : s.leaveReset.rdy = s.rdy := rfl
@[simp] theorem State.leaveReset_dly (s : State) : s.leaveReset.dly = s.dly := rfl
@[simp] theorem State.leaveReset_byte (s : State) : s.leaveReset.byte = s.byte := rfl
@[simp] theorem State.leaveReset_csum (s : State) : s.leaveReset.csum = s.csum := rfl
@[simp] theorem State.leaveReset_rxbuf (s : State) : s.leaveReset.rxbuf = s.rxbuf := rfl
@[simp] theorem State.leaveReset_pc (s : State) : s.leaveReset.pc = s.pc := rfl
@[simp] theorem State.leaveReset_todo (s : State) : s.leaveReset.todo = s.todo := rfl
@[simp] theorem State.leaveReset_fault (s : State) : s.leaveReset.fault = s.fault := rfl
@[simp] theorem State.leaveReset_fpc (s : State) : s.leaveReset.fpc = s.fpc := rfl
@[simp] theorem State.leaveReset_cfg (s : State) : s.leaveReset.cfg = s.cfg := rfl
@[simp] theorem State.leaveReset_pwr (s : State) : s.leaveReset.pwr = s.pwr := rfl
@[simp] theorem State.leaveReset_ack (s : State) : s.leaveReset.ack = s.ack := rfl
@[simp] theorem State.leaveReset_clk (s : State) : s.leaveReset.clk = s.clk := rfl
@[simp] theorem State.leaveReset_rst (s : State) : s.leaveReset.rst = false := rfl
@[simp] theorem State.leaveReset_peerBit (s : State) : s.leaveReset.peerBit = s.peerBit := rfl
@[simp] theorem State.leaveReset_queue (s : State) : s.leaveReset.queue = s.queue := rfl
@[simp] theorem State.leaveReset_draws (s : State) : s.leaveReset.draws = s.draws := rfl

/-! `State.latchOut`: ENG's step at a fall writes `DO` only (R121). -/

@[simp] theorem State.latchOut_sr (s : State) : s.latchOut.sr = s.sr := rfl
@[simp] theorem State.latchOut_dout (s : State) : s.latchOut.dout = Reg.known (BitVec.ofBool (s.srNow.getLsbD 0)) := rfl
@[simp] theorem State.latchOut_bitcnt (s : State) : s.latchOut.bitcnt = s.bitcnt := rfl
@[simp] theorem State.latchOut_tc (s : State) : s.latchOut.tc = s.tc := rfl
@[simp] theorem State.latchOut_en (s : State) : s.latchOut.en = s.en := rfl
@[simp] theorem State.latchOut_datOe (s : State) : s.latchOut.datOe = s.datOe := rfl
@[simp] theorem State.latchOut_rdy (s : State) : s.latchOut.rdy = s.rdy := rfl
@[simp] theorem State.latchOut_dly (s : State) : s.latchOut.dly = s.dly := rfl
@[simp] theorem State.latchOut_byte (s : State) : s.latchOut.byte = s.byte := rfl
@[simp] theorem State.latchOut_csum (s : State) : s.latchOut.csum = s.csum := rfl
@[simp] theorem State.latchOut_rxbuf (s : State) : s.latchOut.rxbuf = s.rxbuf := rfl
@[simp] theorem State.latchOut_pc (s : State) : s.latchOut.pc = s.pc := rfl
@[simp] theorem State.latchOut_todo (s : State) : s.latchOut.todo = s.todo := rfl
@[simp] theorem State.latchOut_fault (s : State) : s.latchOut.fault = s.fault := rfl
@[simp] theorem State.latchOut_fpc (s : State) : s.latchOut.fpc = s.fpc := rfl
@[simp] theorem State.latchOut_cfg (s : State) : s.latchOut.cfg = s.cfg := rfl
@[simp] theorem State.latchOut_pwr (s : State) : s.latchOut.pwr = s.pwr := rfl
@[simp] theorem State.latchOut_ack (s : State) : s.latchOut.ack = s.ack := rfl
@[simp] theorem State.latchOut_clk (s : State) : s.latchOut.clk = s.clk := rfl
@[simp] theorem State.latchOut_rst (s : State) : s.latchOut.rst = s.rst := rfl
@[simp] theorem State.latchOut_peerBit (s : State) : s.latchOut.peerBit = s.peerBit := rfl
@[simp] theorem State.latchOut_queue (s : State) : s.latchOut.queue = s.queue := rfl
@[simp] theorem State.latchOut_draws (s : State) : s.latchOut.draws = s.draws + 1 := rfl

/-! `State.shiftIn`: ENG's step at a rise writes `SR`, `BITCNT` and `TC` only (R122). -/

@[simp] theorem State.shiftIn_sr (s : State) (d : Drive) : (s.shiftIn d).sr = s.sr.shiftIn (s.pad d) := rfl
@[simp] theorem State.shiftIn_dout (s : State) (d : Drive) : (s.shiftIn d).dout = s.dout := rfl
@[simp] theorem State.shiftIn_bitcnt (s : State) (d : Drive) : (s.shiftIn d).bitcnt = bitcntAfterRise s.bitcnt := rfl
@[simp] theorem State.shiftIn_tc (s : State) (d : Drive) : (s.shiftIn d).tc = tcAfterRise s.bitcnt s.tc := rfl
@[simp] theorem State.shiftIn_en (s : State) (d : Drive) : (s.shiftIn d).en = s.en := rfl
@[simp] theorem State.shiftIn_datOe (s : State) (d : Drive) : (s.shiftIn d).datOe = s.datOe := rfl
@[simp] theorem State.shiftIn_rdy (s : State) (d : Drive) : (s.shiftIn d).rdy = s.rdy := rfl
@[simp] theorem State.shiftIn_dly (s : State) (d : Drive) : (s.shiftIn d).dly = s.dly := rfl
@[simp] theorem State.shiftIn_byte (s : State) (d : Drive) : (s.shiftIn d).byte = s.byte := rfl
@[simp] theorem State.shiftIn_csum (s : State) (d : Drive) : (s.shiftIn d).csum = s.csum := rfl
@[simp] theorem State.shiftIn_rxbuf (s : State) (d : Drive) : (s.shiftIn d).rxbuf = s.rxbuf := rfl
@[simp] theorem State.shiftIn_pc (s : State) (d : Drive) : (s.shiftIn d).pc = s.pc := rfl
@[simp] theorem State.shiftIn_todo (s : State) (d : Drive) : (s.shiftIn d).todo = s.todo := rfl
@[simp] theorem State.shiftIn_fault (s : State) (d : Drive) : (s.shiftIn d).fault = s.fault := rfl
@[simp] theorem State.shiftIn_fpc (s : State) (d : Drive) : (s.shiftIn d).fpc = s.fpc := rfl
@[simp] theorem State.shiftIn_cfg (s : State) (d : Drive) : (s.shiftIn d).cfg = s.cfg := rfl
@[simp] theorem State.shiftIn_pwr (s : State) (d : Drive) : (s.shiftIn d).pwr = s.pwr := rfl
@[simp] theorem State.shiftIn_ack (s : State) (d : Drive) : (s.shiftIn d).ack = s.ack := rfl
@[simp] theorem State.shiftIn_clk (s : State) (d : Drive) : (s.shiftIn d).clk = s.clk := rfl
@[simp] theorem State.shiftIn_rst (s : State) (d : Drive) : (s.shiftIn d).rst = s.rst := rfl
@[simp] theorem State.shiftIn_peerBit (s : State) (d : Drive) : (s.shiftIn d).peerBit = s.peerBit := rfl
@[simp] theorem State.shiftIn_queue (s : State) (d : Drive) : (s.shiftIn d).queue = s.queue := rfl
@[simp] theorem State.shiftIn_draws (s : State) (d : Drive) : (s.shiftIn d).draws = s.draws := rfl

/-! `State.readyToFetch`: what makes the next event a fetch (log 7). -/

@[simp] theorem State.readyToFetch_sr (s : State) : s.readyToFetch.sr = s.sr := rfl
@[simp] theorem State.readyToFetch_dout (s : State) : s.readyToFetch.dout = s.dout := rfl
@[simp] theorem State.readyToFetch_bitcnt (s : State) : s.readyToFetch.bitcnt = s.bitcnt := rfl
@[simp] theorem State.readyToFetch_tc (s : State) : s.readyToFetch.tc = s.tc := rfl
@[simp] theorem State.readyToFetch_en (s : State) : s.readyToFetch.en = s.en := rfl
@[simp] theorem State.readyToFetch_datOe (s : State) : s.readyToFetch.datOe = s.datOe := rfl
@[simp] theorem State.readyToFetch_rdy (s : State) : s.readyToFetch.rdy = s.rdy := rfl
@[simp] theorem State.readyToFetch_dly (s : State) : s.readyToFetch.dly = s.dly := rfl
@[simp] theorem State.readyToFetch_byte (s : State) : s.readyToFetch.byte = s.byte := rfl
@[simp] theorem State.readyToFetch_csum (s : State) : s.readyToFetch.csum = s.csum := rfl
@[simp] theorem State.readyToFetch_rxbuf (s : State) : s.readyToFetch.rxbuf = s.rxbuf := rfl
@[simp] theorem State.readyToFetch_pc (s : State) : s.readyToFetch.pc = s.pc := rfl
@[simp] theorem State.readyToFetch_todo (s : State) : s.readyToFetch.todo = [] := rfl
@[simp] theorem State.readyToFetch_fault (s : State) : s.readyToFetch.fault = 0 := rfl
@[simp] theorem State.readyToFetch_fpc (s : State) : s.readyToFetch.fpc = s.fpc := rfl
@[simp] theorem State.readyToFetch_cfg (s : State) : s.readyToFetch.cfg = s.cfg := rfl
@[simp] theorem State.readyToFetch_pwr (s : State) : s.readyToFetch.pwr = s.pwr := rfl
@[simp] theorem State.readyToFetch_ack (s : State) : s.readyToFetch.ack = s.ack := rfl
@[simp] theorem State.readyToFetch_clk (s : State) : s.readyToFetch.clk = s.clk := rfl
@[simp] theorem State.readyToFetch_rst (s : State) : s.readyToFetch.rst = false := rfl
@[simp] theorem State.readyToFetch_peerBit (s : State) : s.readyToFetch.peerBit = s.peerBit := rfl
@[simp] theorem State.readyToFetch_queue (s : State) : s.readyToFetch.queue = .seq :: s.queue := rfl
@[simp] theorem State.readyToFetch_draws (s : State) : s.readyToFetch.draws = s.draws := rfl

end Sys2Proof.Machine
end

