-- ==== Sys2Proof/Laws/Step.lean ====
section
/-! SUPPORT. What a step can do, said once: which of its cases applies, and what each leaves unchanged. -/

namespace Sys2Proof.Machine

/-! ## The cases of a SEQ step (R160) -/

theorem State.seqEnabled_iff (s : State) : s.seqEnabled = true ↔ s.rst = false ∧ s.fault = 0 := by
  simp [State.seqEnabled]

theorem seqStep_disabled {s : State} (h : s.seqEnabled = false) : seqStep s = .next s := by
  simp [seqStep, h]

theorem seqStep_fetch {s : State} (h : s.seqEnabled = true) (ht : s.todo = []) : seqStep s = fetch s := by
  simp [seqStep, h, ht]

theorem seqStep_execute {s : State} {p : Prim} {rest : List Prim} (h : s.seqEnabled = true) (ht : s.todo = p :: rest) :
    seqStep s = execute p rest s := by
  simp [seqStep, h, ht]

theorem fetch_illegal {s : State} {why : IllegalWord} (h : decode s.scriptWord = .error why) :
    fetch s = .next (s.raise .illegalStep) := by
  simp [fetch, h]

theorem fetch_legal {s : State} {i : Instr} (h : decode s.scriptWord = .ok i) : fetch s = exec i s := by
  simp [fetch, h]

/-- Every way a SEQ step can end in a next state: SEQ has no step, or the primitive holds; the primitive completes; a
fault is raised; an expansion is loaded. -/
theorem seqStep_cases {s t : State} (h : seqStep s = .next t) :
    t = s ∨
    (s.seqEnabled = true ∧ ∃ p rest u, s.todo = p :: rest ∧ perform p s = .advance u ∧ t = { u with todo := rest }) ∨
    (s.seqEnabled = true ∧ ∃ c, t = s.raise c) ∨
    (s.seqEnabled = true ∧ s.todo = [] ∧ ∃ i, decode s.scriptWord = .ok i ∧ exec i s = .next t) := by
  unfold seqStep at h
  split at h
  · rename_i he
    split at h
    · rename_i ht
      unfold fetch at h
      split at h
      · cases h
        exact .inr (.inr (.inl ⟨he, _, rfl⟩))
      · rename_i i hd
        exact .inr (.inr (.inr ⟨he, ht, i, hd, h⟩))
    · rename_i p rest ht
      unfold execute at h
      split at h
      · rename_i u hp
        cases h
        exact .inr (.inl ⟨he, p, rest, u, ht, hp, rfl⟩)
      · cases h
        exact .inl rfl
      · cases h
        exact .inr (.inr (.inl ⟨he, _, rfl⟩))
      · cases h
  · cases h
    exact .inl rfl

/-- The fetch of a legal step loads its expansion or raises one of the two fetch-time faults. -/
theorem exec_cases {i : Instr} {s t : State} (h : exec i s = .next t) :
    t = s.load (expand s i) ∨ (∃ n, i = .rdf n ∧ t = s.raise .framePrecondition) ∨
      (∃ k, i = .wrf k ∧ t = s.raise .payloadIndex) := by
  cases i with
  | rdf n =>
    simp only [exec, execRdf] at h
    split at h <;> cases h
    · exact .inr (.inl ⟨n, rfl, rfl⟩)
    · exact .inl rfl
  | wrf k =>
    simp only [exec, execWrf] at h
    split at h <;> cases h
    · exact .inr (.inr ⟨k, rfl, rfl⟩)
    · exact .inl rfl
  | _ => cases h; exact .inl rfl

/-- `exec` always answers a next state: the faults of the fetch are taken, not stopped at (R193). -/
theorem exec_answers (i : Instr) (s : State) : ∃ t, exec i s = .next t := by
  cases i with
  | rdf n =>
    simp only [exec, execRdf]
    split <;> exact ⟨_, rfl⟩
  | wrf k =>
    simp only [exec, execWrf]
    split <;> exact ⟨_, rfl⟩
  | _ => exact ⟨_, rfl⟩

/-- The two readings of the directory check agree (R61, R191). -/
theorem payloadRunsPast_eq (e : PayloadEntry) : payloadRunsPast e = !e.usable := by
  simp only [payloadRunsPast, PayloadEntry.usable, ← decide_not]
  congr 1
  simp only [Nat.not_le]

theorem payloadEntry_eq (s : State) (k : BitVec 4) : s.payloadEntry k = entryAt s.cfg k := rfl

theorem scriptWord_eq (s : State) : s.scriptWord = scriptAt s.cfg s.pc.toNat := rfl

/-- A step that passes the fetch-time checks loads its expansion. -/
theorem exec_wellFormed {i : Instr} {s : State} (h : i.wellFormed (entryAt s.cfg) = true) :
    exec i s = .next (s.load (expand s i)) := by
  cases i with
  | rdf n =>
    have hn : n ≠ 0 := by simpa [Instr.wellFormed, Instr.frameOk, Instr.payloadOk, payloadEntry_eq] using h
    simp only [exec, execRdf, expand, if_neg hn]
  | wrf k =>
    have hk : (s.payloadEntry k).usable = true := by
      simpa [Instr.wellFormed, Instr.frameOk, Instr.payloadOk, payloadEntry_eq] using h
    simp [exec, execWrf, payloadRunsPast_eq, hk, expand]
  | _ => rfl

/-! ## What a completed primitive changes (R8) -/

/-- A primitive that completes touches neither the configuration, the pins, the fault registers, `TODO` nor the queue. -/
theorem perform_keeps {p : Prim} {s t : State} (h : perform p s = .advance t) :
    t.cfg = s.cfg ∧ t.fault = s.fault ∧ t.fpc = s.fpc ∧ t.todo = s.todo ∧ t.queue = s.queue ∧
      t.pwr = s.pwr ∧ t.ack = s.ack ∧ t.clk = s.clk ∧ t.rst = s.rst ∧ t.peerBit = s.peerBit := by
  cases p <;> simp only [perform] at h
  case waitl l v => simp only [doWaitl, completeIff] at h; split at h <;> cases h; simp
  case waitt => simp only [doWaitt, completeIff] at h; split at h <;> cases h; simp
  case waittc => simp only [doWaittc, completeIff] at h; split at h <;> cases h; simp
  case stb i => simp only [doStb] at h; split at h <;> cases h; simp
  case next => simp only [doNext] at h; split at h <;> cases h; simp
  case halt => cases h
  all_goals
    cases h
    simp

/-- A primitive that completes changes the registers of its own rule and no other (R101 to R104, R123 to R129, R141 to
R143, R162). -/
theorem perform_writes {p : Prim} {s t : State} (h : perform p s = .advance t) :
    (t.rdy = s.rdy ∨ p = .setrdy t.rdy) ∧
    (t.byte = s.byte ∨ p = .getb) ∧
    (t.csum = s.csum ∨ p = .clrsum ∨ ∃ src, p = .acc src) ∧
    (t.rxbuf = s.rxbuf ∨ ∃ i, p = .stb i) ∧
    (t.dly = s.dly ∨ p = .ldt t.dly) ∧
    (t.en = s.en ∨ p = .toff ∨ p = .ton) ∧
    (t.datOe = datOeAfter s.datOe p) ∧
    (t.sr = s.sr ∨ p = .toff ∨ ∃ src, p = .putb src) ∧
    (t.dout = s.dout ∨ p = .toff) ∧
    (t.bitcnt = s.bitcnt ∨ p = .toff) ∧
    (t.tc = s.tc ∨ (t.tc = false ∧ (p = .clrtc ∨ p = .getb ∨ p = .toff ∨ ∃ src, p = .putb src))) ∧
    (t.pc = s.pc ∨ (p = .next ∧ s.pc ≠ 255 ∧ t.pc = s.pc + 1)) := by
  cases p <;> simp only [perform] at h
  case waitl l v => simp only [doWaitl, completeIff] at h; split at h <;> cases h; simp [datOeAfter]
  case waitt => simp only [doWaitt, completeIff] at h; split at h <;> cases h; simp [datOeAfter]
  case waittc => simp only [doWaittc, completeIff] at h; split at h <;> cases h; simp [datOeAfter]
  case stb i => simp only [doStb] at h; split at h <;> cases h; simp [datOeAfter]
  case next => simp only [doNext] at h; split at h <;> cases h; simp_all [datOeAfter]
  case halt => cases h
  case putb src =>
    cases h
    refine ⟨.inl rfl, .inl rfl, .inl rfl, .inl rfl, .inl rfl, .inl rfl, rfl, .inr (.inr ⟨_, rfl⟩), .inl rfl,
      .inl rfl, ?_, .inl rfl⟩
    simp only [State.passDraws_tc, tcAfterWrite]
    split
    · cases s.tc <;> cases s.drawBit 0 <;> simp
    · simp
  all_goals
    cases h
    simp [datOeAfter]

/-! ## The other agents (R121, R122, R105, R196) -/

theorem clkFall_of_low {s : State} (h : s.clk = false) : clkFall s = s := by
  simp [clkFall, h]

theorem clkFall_of_enabled {s : State} (h : s.clk = true) (he : s.engEnabled = true) :
    clkFall s = { s with
      clk := false, dout := Reg.known (BitVec.ofBool (s.srNow.getLsbD 0)), draws := s.draws + 1 } := by
  simp only [clkFall, h, he, if_true]
  rfl

theorem clkFall_of_disabled {s : State} (h : s.clk = true) (he : s.engEnabled = false) :
    clkFall s = { s with clk := false } := by
  simp [clkFall, h, he]

theorem clkRise_of_high {s : State} (drv : Drive) (h : s.clk = true) : clkRise drv s = s := by
  simp [clkRise, h]

theorem clkRise_of_enabled {s : State} (drv : Drive) (h : s.clk = false) (he : s.engEnabled = true) :
    clkRise drv s = { s with
      clk := true, peerBit := s.peerSample drv, draws := s.draws + 3
      sr := s.sr.shiftIn (s.pad drv), bitcnt := bitcntAfterRise s.bitcnt, tc := tcAfterRise s.bitcnt s.tc } := by
  simp only [clkRise, h, he, if_true]
  rfl

theorem clkRise_of_disabled {s : State} (drv : Drive) (h : s.clk = false) (he : s.engEnabled = false) :
    clkRise drv s = { s with clk := true, peerBit := s.peerSample drv, draws := s.draws + 3 } := by
  simp only [clkRise, h, he]
  rfl

/-- A falling edge changes `CLK`, `DO` and the draw counter only. -/
theorem clkFall_keeps (s : State) :
    clkFall s = { s with clk := (clkFall s).clk, dout := (clkFall s).dout, draws := (clkFall s).draws } := by
  unfold clkFall
  split
  · dsimp only
    split <;> rfl
  · rfl

/-- A rising edge changes `CLK`, `SR`, `BITCNT`, `TC`, PEER's sample and the draw counter only. -/
theorem clkRise_keeps (drv : Drive) (s : State) :
    clkRise drv s = { s with
      clk := (clkRise drv s).clk, sr := (clkRise drv s).sr, bitcnt := (clkRise drv s).bitcnt
      tc := (clkRise drv s).tc, peerBit := (clkRise drv s).peerBit, draws := (clkRise drv s).draws } := by
  unfold clkRise
  split
  · rfl
  · dsimp only
    split <;> rfl

/-- A `Tick` changes `DLY` only. -/
theorem tick_keeps (s : State) : tick s = { s with dly := (tick s).dly } := by
  unfold tick
  split
  · rfl
  · split <;> rfl

/-- An event of another agent than SEQ, reset apart, leaves everything but the transport registers, the delay counter and
the pins as it was (R196). -/
theorem act_keeps {e : Event} {s t : State} (h : act e s = .next t) (hs : e ≠ .seq) (hr : ∀ b, e ≠ .rst b) :
    t = { s with
      sr := t.sr, dout := t.dout, bitcnt := t.bitcnt, tc := t.tc, dly := t.dly
      pwr := t.pwr, ack := t.ack, clk := t.clk, peerBit := t.peerBit, draws := t.draws } := by
  cases e with
  | seq => exact absurd rfl hs
  | rst b => exact absurd rfl (hr b)
  | tick => cases h; rw [tick_keeps]
  | clkFall => cases h; rw [clkFall_keeps]
  | clkRise drv => cases h; rw [clkRise_keeps]
  | ack v => cases h; rfl
  | pwr v => cases h; rfl

/-! ## The next event (R10) -/

theorem nextEvent_of_queue {s : State} {e : Event} {rest : List Event} (h : s.queue = e :: rest) :
    nextEvent s = (e, { s with queue := rest }) := by
  simp [nextEvent, h]

/-- Taking an event changes the model's own fields only. -/
theorem nextEvent_keeps (s : State) :
    (nextEvent s).2 = { s with queue := (nextEvent s).2.queue, draws := (nextEvent s).2.draws } := by
  unfold nextEvent
  split
  · rfl
  · rfl

end Sys2Proof.Machine
end

