-- ==== Sys2Proof/Laws/Runs.lean ====
section
/-! SUPPORT. Runs under given events: how they compose, and what ticks and single primitives do to them. -/

namespace Sys2Proof.Machine

@[simp] theorem runEvents_nil (s : State) : runEvents [] s = .next s := rfl

/-- An event that answers a next state hands the rest of the events to it. -/
theorem runEvents_cons {e : Event} {es : List Event} {s t : State} (h : act e s = .next t) :
    runEvents (e :: es) s = runEvents es t := by
  simp [runEvents, h]

/-- A run that answers a next state hands the events behind it to that state. -/
theorem runEvents_append {es fs : List Event} {s t : State} (h : runEvents es s = .next t) :
    runEvents (es ++ fs) s = runEvents fs t := by
  induction es generalizing s with
  | nil => cases h; rfl
  | cons e es ih =>
    simp only [runEvents, List.cons_append] at h ⊢
    split at h
    · exact ih h
    · cases h
    · cases h

/-- PEER's samples over a run and the events behind it. -/
theorem sampledBits_append {es fs : List Event} {s t : State} (h : runEvents es s = .next t) :
    sampledBits (es ++ fs) s = sampledBits es s ++ sampledBits fs t := by
  induction es generalizing s with
  | nil => cases h; rfl
  | cons e es ih =>
    simp only [runEvents, sampledBits, List.cons_append] at h ⊢
    split at h
    · rename_i u hu
      rw [hu]
      cases e <;> simp [ih h]
    · cases h
    · cases h

/-- SEQ's own steps sample nothing. -/
theorem sampledBits_seqs (k : Nat) (s : State) : sampledBits (seqs k) s = [] := by
  induction k generalizing s with
  | zero => rfl
  | succ k ih =>
    simp only [seqs, List.replicate_succ, sampledBits]
    split
    · exact ih _
    · rfl

/-- A primitive that completes is removed (R9). -/
theorem seqStep_advance {s u : State} {p : Prim} {rest : List Prim} (h : s.seqEnabled = true) (ht : s.todo = p :: rest)
    (hp : perform p s = .advance u) : seqStep s = .next { u with todo := rest } := by
  rw [seqStep_execute h ht]
  simp [execute, hp]

/-- A primitive that holds changes nothing (R9). -/
theorem seqStep_hold {s : State} {p : Prim} {rest : List Prim} (h : s.seqEnabled = true) (ht : s.todo = p :: rest)
    (hp : perform p s = .hold) : seqStep s = .next s := by
  rw [seqStep_execute h ht]
  simp [execute, hp]

theorem tick_toNat {s : State} (h : s.rst = false) : (tick s).dly.toNat = s.dly.toNat - 1 := by
  unfold tick
  rw [if_neg (by simp [h])]
  split
  · rename_i h0
    simp [h0]
  · rename_i h0
    have hn : s.dly.toNat ≠ 0 := fun hz => h0 (BitVec.eq_of_toNat_eq hz)
    have hlt := s.dly.isLt
    simp
    omega

/-- `j` ticks take `j` from the delay counter, down to zero (R105). -/
theorem runEvents_ticks (j : Nat) {s : State} (h : s.rst = false) :
    runEvents (List.replicate j .tick) s = .next { s with dly := BitVec.ofNat 22 (s.dly.toNat - j) } := by
  induction j generalizing s with
  | zero => simp
  | succ j ih =>
    rw [List.replicate_succ, runEvents_cons (t := tick s) rfl, ih (by rw [tick_keeps]; exact h), tick_toNat h,
      tick_keeps s, Nat.sub_sub, Nat.add_comm 1 j]

/-- Ticks sample nothing. -/
theorem sampledBits_ticks (j : Nat) (s : State) : sampledBits (List.replicate j .tick) s = [] := by
  induction j generalizing s with
  | zero => rfl
  | succ j ih => exact ih _

end Sys2Proof.Machine
end

