-- ==== Sys2Proof/Laws/Script.lean ====
section
/-! SUPPORT. `TODO` as what remains of the step at `PC`: where `NEXT` stands, what one event can do to it, and how an
invariant of events becomes one of steps and runs. -/

namespace Sys2Proof.Machine

/-! ## Usable steps (R93a) -/

/-- A usable step is the decoding of its word and passes the fetch-time checks. -/
theorem usableStep_iff {c : Config} {pc : Nat} {i : Instr} :
    usableStep c pc = some i ↔ decode (scriptAt c pc) = .ok i ∧ i.wellFormed (entryAt c) = true := by
  unfold usableStep
  split
  · simp_all
    exact ⟨fun ⟨h, e⟩ => ⟨e, e ▸ h⟩, fun ⟨e, h⟩ => ⟨e ▸ h, e⟩⟩
  · simp_all

/-- An expansion depends on the configuration alone (R161). -/
theorem expand_congr {s t : State} (h : t.cfg = s.cfg) (i : Instr) : expand t i = expand s i := by
  cases i <;> simp [expand, State.payloadEntry, h]

/-! ## Where `NEXT` stands (R160, R162) -/

theorem next_not_mem_readLoop (c i : Nat) : Prim.next ∉ readLoop c i := by
  induction c generalizing i with
  | zero => simp [readLoop]
  | succ c ih => simp [readLoop, readLoopByte, readByte, toggleReady, ih]

theorem next_not_mem_writeLoop (t : Byte) (k : BitVec 4) (c i : Nat) : Prim.next ∉ writeLoop t k c i := by
  induction c generalizing i with
  | zero => simp [writeLoop]
  | succ c ih => simp [writeLoop, writeLoopByte, settleCycle, waitLevelLow, writeByte, toggleReady, ih]

/-- No expansion holds `NEXT`. -/
theorem next_not_mem_expand (s : State) (i : Instr) : Prim.next ∉ expand s i := by
  cases i <;>
    simp [expand, waitLevel, waitFallingEdge, waitRisingEdge, waitLevelLow, waitLevelHigh, toggleReady, writeByte,
      delayMicroseconds, readFrame, writeFrame, readLastByte, readReply, readByte, settleCycle, next_not_mem_readLoop,
      next_not_mem_writeLoop]

/-- Of what remains of a step, `NEXT` is the end; behind any other primitive something remains. -/
theorem suffix_cons_next {p : Prim} {rest l : List Prim} (h : p :: rest <:+ l ++ [.next]) (hl : Prim.next ∉ l) :
    (p = .next → rest = []) ∧ (p ≠ .next → rest <:+ l ++ [.next] ∧ rest ≠ []) := by
  have hr : rest <:+ l ++ [.next] := (List.suffix_cons p rest).trans h
  rcases List.suffix_concat_iff.1 (by simpa using h) with h | ⟨t, ht, hs⟩
  · cases h
  · cases t with
    | nil => simp at ht; simp [ht]
    | cons q t =>
      simp at ht
      obtain ⟨rfl, rfl⟩ := ht
      exact ⟨fun hq => absurd (hs.subset (by simp [hq])) hl, fun _ => ⟨hr, by simp⟩⟩

/-! ## What one event does to `TODO` -/

/-- No event changes the configuration (R76, R212). -/
theorem act_cfg {e : Event} {s t : State} (h : act e s = .next t) : t.cfg = s.cfg := by
  cases e with
  | seq =>
    rcases seqStep_cases h with rfl | ⟨_, p, rest, u, _, hp, rfl⟩ | ⟨_, c, rfl⟩ | ⟨_, _, i, _, hx⟩
    · rfl
    · exact (perform_keeps hp).1
    · rfl
    · rcases exec_cases hx with rfl | ⟨n, _, rfl⟩ | ⟨k, _, rfl⟩ <;> rfl
  | rst b => cases h; cases b <;> rfl
  | _ => rw [act_keeps h (by simp) (by simp)]

/-- A primitive that completes moves `PC` iff it is `NEXT` (R162). -/
theorem perform_pc {p : Prim} {s u : State} (h : perform p s = .advance u) :
    (p ≠ .next → u.pc = s.pc) ∧ (p = .next → s.pc ≠ 255 ∧ u.pc = s.pc + 1) := by
  refine ⟨fun hp => ?_, fun hp => ?_⟩
  · obtain ⟨_, _, _, _, _, _, _, _, _, _, _, hpc⟩ := perform_writes h
    exact hpc.resolve_right fun hn => hp hn.1
  · subst hp
    simp only [perform, doNext] at h
    split at h <;> cases h
    exact ⟨‹_›, rfl⟩

/-- Only `NEXT` at the last index raises a fault while it executes (R191). -/
theorem perform_trap {p : Prim} {s : State} {c : FaultCode} (h : perform p s = .trap c) : p = .next ∧ s.pc = 255 := by
  cases p <;>
    simp only [perform, doSetrdy, doWaitl, doLdt, doWaitt, doSetdir, doClrtc, doWaittc, doGetb, doPutb, doToff, doTon,
      doClrsum, doAcc, doStb, doNext, doHalt, completeIff] at h
  all_goals first | cases h | (split at h <;> cases h)
  exact ⟨rfl, ‹_›⟩

/-- A fetch of a step that is not usable leaves `TODO` empty: it faults (R191). -/
theorem exec_unusable {i : Instr} {s t : State} (hw : ¬ i.wellFormed (entryAt s.cfg) = true) (h : exec i s = .next t) :
    t.todo = [] := by
  cases i with
  | rdf n =>
    obtain rfl : n = 0 := by simpa [Instr.wellFormed, Instr.frameOk, Instr.payloadOk] using hw
    cases h
    rfl
  | wrf k =>
    have hk : (s.payloadEntry k).usable = false := by
      simpa [Instr.wellFormed, Instr.frameOk, Instr.payloadOk, payloadEntry_eq] using hw
    simp [exec, execWrf, payloadRunsPast_eq, hk] at h
    subst h
    rfl
  | _ => simp [Instr.wellFormed, Instr.frameOk, Instr.payloadOk] at hw

/-- Every way an event can treat the script's progress: it leaves it alone; it is reset; a primitive completes; a fault is
raised, by a fetch of no usable step or by `NEXT` at the last index; a usable step is loaded. -/
theorem act_cases {e : Event} {s t : State} (h : act e s = .next t) :
    (t.todo = s.todo ∧ t.pc = s.pc ∧ t.csum = s.csum ∧ t.byte = s.byte ∧ t.rxbuf = s.rxbuf ∧ t.fault = s.fault) ∨
    (t.todo = [] ∧ t.pc = 0 ∧ t.fault = 0) ∨
    (s.seqEnabled = true ∧ ∃ p rest u, s.todo = p :: rest ∧ perform p s = .advance u ∧ t = { u with todo := rest }) ∨
    (t.todo = [] ∧ (s.todo = [] → usableStep s.cfg s.pc.toNat = none) ∧
      (s.todo ≠ [] → ∃ rest, s.todo = .next :: rest ∧ s.pc = 255)) ∨
    (s.todo = [] ∧ ∃ i, usableStep s.cfg s.pc.toNat = some i ∧ t = s.load (expand s i)) := by
  cases e with
  | seq =>
    change seqStep s = _ at h
    by_cases he : s.seqEnabled = true
    · cases ht : s.todo with
      | nil =>
        rw [seqStep_fetch he ht] at h
        unfold fetch at h
        split at h
        · rename_i w hd
          cases h
          refine .inr (.inr (.inr (.inl ⟨rfl, fun _ => ?_, by simp⟩)))
          simp only [usableStep, ← scriptWord_eq, hd]
        · rename_i i hd
          by_cases hw : i.wellFormed (entryAt s.cfg) = true
          · rw [exec_wellFormed hw] at h
            cases h
            exact .inr (.inr (.inr (.inr ⟨rfl, i, usableStep_iff.2 ⟨hd, hw⟩, rfl⟩)))
          · refine .inr (.inr (.inr (.inl ⟨exec_unusable hw h, fun _ => ?_, by simp⟩)))
            simp only [usableStep, ← scriptWord_eq, hd, hw]
            simp
      | cons p rest =>
        rw [seqStep_execute he ht] at h
        unfold execute at h
        split at h
        · rename_i u hp
          cases h
          exact .inr (.inr (.inl ⟨he, p, rest, u, rfl, hp, rfl⟩))
        · cases h
          simp [ht]
        · rename_i c hp
          cases h
          obtain ⟨rfl, hpc⟩ := perform_trap hp
          exact .inr (.inr (.inr (.inl ⟨rfl, by simp, fun _ => ⟨rest, rfl, hpc⟩⟩)))
        · cases h
    · rw [seqStep_disabled (by simpa using he)] at h
      cases h
      simp
  | rst b =>
    cases h
    cases b
    · simp [setRst]
    · exact .inr (.inl ⟨rfl, rfl, rfl⟩)
  | _ =>
    left
    rw [act_keeps h (by simp) (by simp)]
    simp

/-! ## From events to steps and runs -/

/-- What every event keeps, whatever the model's own fields hold, every step keeps. -/
theorem step_keeps_of_act {P : State → Prop} (hown : ∀ s q d, P s → P { s with queue := q, draws := d })
    (hact : ∀ e s t, P s → act e s = .next t → P t) {s t : State} (hs : P s) (h : step s = .next t) : P t := by
  refine hact _ _ _ ?_ h
  rw [nextEvent_keeps]
  exact hown _ _ _ hs

/-- What every step keeps holds at the end of every run. -/
theorem run_keeps_of_step {P : State → Prop} (hstep : ∀ s t, P s → step s = .next t → P t) (k : Nat) {s t : State}
    (hs : P s) (h : Sys2Proof.core.run k s = .next t) : P t := by
  induction k generalizing s with
  | zero => cases h; exact hs
  | succ k ih =>
    simp only [Host.Core.run] at h
    split at h
    · exact ih (hstep _ _ hs ‹_›) h
    · cases h
    · cases h

end Sys2Proof.Machine
end

