-- ==== Sys2Proof/Tests/Slice0.lean ====
section
/-! SUPPORT. Tests against the spec's own vectors (95_test_vectors.md; each names its row) and, for every statement with
hypotheses, a witness that meets all of them. -/

namespace Sys2Proof.Machine

/-! ## A small machine -/

/-- The payloads of program P3, a directory entry past the end and one that just fits (95 rows F3, F4). -/
def testCfg : Config :=
  { script := [(0, 0x2100), (1, 0x4002), (2, 0x1002), (3, 0x3000), (4, 0x9000)]
    pdir := [(0, ⟨0, 5⟩), (1, ⟨5, 21⟩), (2, ⟨250, 10⟩), (3, ⟨250, 6⟩), (5, ⟨1, 255⟩)]
    prom := [(1, 0x0A), (2, 0x10), (3, 0xC4), (4, 0x09)]
    sent := ⟨0xFF, by decide⟩, tSettle := 10 }

/-- The start state of 95: reset, `SR` taken as `0xA5`. -/
def testState : State := { State.reset with cfg := testCfg, sr := Reg.known 0xA5 }

/-- The same with the given primitive at the head of `TODO`. -/
def testAt (p : Prim) : State := { testState with todo := [p, .next] }

/-- The next state of an outcome. -/
def nextOf (o : Host.Outcome State Fault Refusal) : Option State :=
  match o with
  | .next s => some s
  | _ => none

/-- The primitives an instruction's fetch loads. -/
def loaded (i : Instr) : Option (List Prim) := (nextOf (exec i testState)).map (·.todo)

/-- One SEQ step, and what is looked at after it. -/
def afterSeq {α : Type} (view : State → α) (s : State) : Option α := (nextOf (seqStep s)).map view

/-- One event, and what is looked at after it. -/
def afterEvent {α : Type} (e : Event) (view : State → α) (s : State) : Option α := (nextOf (act e s)).map view

/-- The fault registers and what `TRAP` writes beside them. -/
def trapView (s : State) : BitVec 3 × Reg 8 × Byte × Bool × List Prim := (s.fault, s.fpc, s.pc, s.datOe, s.todo)

/-! ## Decoding, words written out from R82 (95 section 2.4) -/

theorem test_decode_wlvAck : decode 0b0001000000000001 = .ok (.wlvAck true) := by decide
theorem test_decode_wlvPwr : decode 0b0001000100000000 = .ok (.wlvPwr false) := by decide
theorem test_decode_wfe : decode 0b0001001000000000 = .ok .wfe := by decide
theorem test_decode_wre : decode 0b0001001100000000 = .ok .wre := by decide
theorem test_decode_wsl : decode 0b0001010011111111 = .ok (.wsl 255) := by decide
theorem test_decode_wsh : decode 0b0001010100001010 = .ok (.wsh 10) := by decide
theorem test_decode_rdyl : decode 0b0010000000000000 = .ok .rdyl := by decide
theorem test_decode_rdyh : decode 0b0010000100000000 = .ok .rdyh := by decide
theorem test_decode_rdyt : decode 0b0010001000000000 = .ok .rdyt := by decide
theorem test_decode_rdf : decode 0b0011000011111111 = .ok (.rdf 255) := by decide
theorem test_decode_wrf : decode 0b0100000000001111 = .ok (.wrf 15) := by decide
theorem test_decode_rawb : decode 0b0101000011111111 = .ok (.rawb 0xFF) := by decide
theorem test_decode_dlyu : decode 0b0110000001100100 = .ok (.dlyu 100) := by decide
theorem test_decode_dlym : decode 0b0111000000000010 = .ok (.dlym 2) := by decide
theorem test_decode_trst : decode 0b1000000000000000 = .ok .trst := by decide
theorem test_decode_stby : decode 0b1001000000000000 = .ok .stby := by decide

/-- The illegal words of 95 section 2.4, by class. -/
theorem test_decode_reservedTag : ([0x0000, 0xA000, 0xFFFF] : List Word).all
    (decode · matches .error .reservedTag) = true := by decide
theorem test_decode_reservedSub : ([0x1600, 0x1F00, 0x2300, 0x3100, 0x4100, 0x5100, 0x8100] : List Word).all
    (decode · matches .error .reservedSub) = true := by decide
theorem test_decode_operandBits : ([0x1002, 0x1102, 0x1201, 0x1301, 0x2201, 0x4010, 0x8001, 0x9001] : List Word).all
    (decode · matches .error .operandBitsSet) = true := by decide

theorem test_decodeTableWord :
    decodeTableWord 16 0x400F = some (.wrf 15) ∧ decodeTableWord 16 0x4010 = none ∧
    decodeTableWord 32 0x2000 = none := by decide

/-! ## Well-formedness: an ill-formed term for each check (R144, R61, R93) -/

theorem test_wellFormed_frame :
    (Instr.rdf 0).wellFormed (entryAt testCfg) = false ∧ (Instr.rdf 1).wellFormed (entryAt testCfg) = true := by decide

/-- 95 F3 and F4: 250 + 10 runs past the end, 250 + 6 does not. -/
theorem test_wellFormed_payload :
    (Instr.wrf 2).wellFormed (entryAt testCfg) = false ∧ (Instr.wrf 3).wellFormed (entryAt testCfg) = true := by decide

/-- `RDYH; STBY` is a script; it is none with `RDF 0`, an unusable payload or an illegal word before the `STBY`. -/
theorem test_wellFormed_script :
    scriptWellFormed { testCfg with script := [(0, 0x2100), (1, 0x9000)] } = true ∧
    scriptWellFormed { testCfg with script := [(0, 0x3000), (1, 0x9000)] } = false ∧
    scriptWellFormed { testCfg with script := [(0, 0x4002), (1, 0x9000)] } = false ∧
    scriptWellFormed { testCfg with script := [(0, 0x1002), (1, 0x9000)] } = false ∧
    scriptWellFormed { testCfg with script := [(0, 0x2100)] } = false := by decide

/-! ## Expansions (the table of R161; 95 section 2.3) -/

theorem test_exec_wlvAck : loaded (.wlvAck false) = some [.waitl .ack false, .next] := by decide
theorem test_exec_wlvPwr : loaded (.wlvPwr true) = some [.waitl .pwr true, .next] := by decide
theorem test_exec_wfe : loaded .wfe = some [.waitl .ack true, .waitl .ack false, .next] := by decide
theorem test_exec_wre : loaded .wre = some [.waitl .ack false, .waitl .ack true, .next] := by decide
theorem test_exec_wsl : loaded (.wsl 255) = some [.ldt 255, .waitt, .waitl .ack false, .next] := by decide
theorem test_exec_wsh : loaded (.wsh 3) = some [.ldt 3, .waitt, .waitl .ack true, .next] := by decide
theorem test_exec_rdyl : loaded .rdyl = some [.setrdy false, .next] := by decide
theorem test_exec_rdyh : loaded .rdyh = some [.setrdy true, .next] := by decide
theorem test_exec_rdyt : loaded .rdyt = some [.setrdy false, .setrdy true, .next] := by decide
theorem test_exec_rawb : loaded (.rawb 0xC4) =
    some [.putb (.imm 0xC4), .setdir true, .waittc, .setdir false, .putb .sent, .next] := by decide
theorem test_exec_dlyu : loaded (.dlyu 4095) = some [.ldt 4095, .waitt, .next] := by decide
/-- 95 S12: `4095000 = 0x3E7C18`. -/
theorem test_exec_dlym : loaded (.dlym 4095) = some [.ldt 0x3E7C18, .waitt, .next] := by decide
theorem test_exec_trst : loaded .trst = some [.toff, .ton, .next] := by decide
theorem test_exec_stby : loaded .stby = some [.halt, .next] := by decide

/-- `readFrame(2)` written out (95 section 2.3). -/
theorem test_exec_rdf : loaded (.rdf 2) = some
    [.clrsum, .setdir false, .clrtc, .waittc, .getb, .setrdy false, .setrdy true, .acc .byte, .stb 0,
     .setdir false, .clrtc, .waittc, .getb, .setrdy false, .acc .byte, .stb 1, .waitl .ack true, .waitl .ack false,
     .setrdy true, .waitl .ack false, .waitl .ack true, .putb .csumr, .setdir true, .waittc, .setdir false,
     .putb .sent, .next] := by decide

/-- `writeFrame(0)` written out (95 section 2.3): payload 4 is unused, `(0, 0)`. -/
theorem test_exec_wrf : loaded (.wrf 4) = some
    [.waitl .ack true, .waitl .ack false, .setrdy false, .setrdy true, .putb (.imm 0), .setdir true, .waittc,
     .setdir false, .putb .sent, .clrsum, .ldt 10, .waitt, .waitl .ack false, .setrdy false, .setrdy true,
     .putb .csumr, .setdir true, .waittc, .setdir false, .putb .sent, .next] := by decide

/-- 95 section 2.3, primitive counts. -/
theorem test_counts :
    [1, 2, 4].map (fun n => (readFrame n).length) = [18, 26, 42] ∧
    ([0, 1, 5] : List Byte).map (fun n => (writeFrame 10 0 n).length) = [20, 31, 75] := by decide

/-- 95 section 2.3, checksums. -/
theorem test_checksums :
    byteSum [0x00, 0x0A, 0x10, 0xC4, 0x09] = 0xE7 ∧ byteSum [0x00, 0x00, 0x10, 0xC4, 0x09] = 0xDD ∧
    byteSum [0x01, 0x02, 0x03, 0xFF] = 0x05 ∧ byteSum [] = 0x00 ∧ byteSum [0xFF, 0x01] = 0x00 ∧
    byteSum ((List.range 21).map fun i => BitVec.ofNat 8 (16 + i)) = 0x22 := by decide

/-! ## Faults (95 section 2.6) -/

/-- F1: `RDF 0` at index 0. -/
theorem test_fault_rdf : (nextOf (exec (.rdf 0) { testState with datOe := true })).map trapView =
    some (2, Reg.known 0, 0, false, []) := by decide

/-- F2: an illegal word at index 2. -/
theorem test_fault_illegal : afterSeq trapView { testState with pc := 2 } = some (1, Reg.known 2, 2, false, []) := by
  decide

/-- F3: payload 2 runs past the end. -/
theorem test_fault_wrf : afterSeq trapView { testState with pc := 1, rdy := true } =
    some (4, Reg.known 1, 1, false, []) := by decide

/-- T7: a step that completes at index 255. -/
theorem test_fault_overrun : afterSeq trapView { testState with pc := 255, todo := [.next] } =
    some (3, Reg.known 255, 255, false, []) := by decide

/-! ## Primitives (95 sections 2.1, 2.2) -/

/-- S1: a wait for high holds while `ACK` is low and advances when it is high. -/
theorem test_waitl : afterSeq (·.todo) (testAt (.waitl .ack true)) = some [.waitl .ack true, .next] ∧
    afterSeq (·.todo) { testAt (.waitl .ack true) with ack := true } = some [.next] := by decide

/-- S11: a `Tick` at zero stays at zero; S6: nine of ten. -/
theorem test_tick : (tick testState).dly = 0 ∧ (tick { testState with dly := 10 }).dly = 9 := by decide

/-- S9: the toggle. -/
theorem test_setrdy : afterSeq (fun t => (t.rdy, t.todo)) { testState with todo := toggleReady, rdy := true } =
    some (false, [.setrdy true]) := by decide

/-- E4: the flag rule of a write. -/
theorem test_putb :
    afterSeq (fun t => (t.tc, t.sr)) (testAt (.putb (.imm 0))) = some (false, Reg.known 0) ∧
    afterSeq (fun t => (t.tc, t.sr)) { testAt (.putb (.imm 0x37)) with tc := true } = some (false, Reg.known 0x37) ∧
    afterSeq (fun t => (t.tc, t.sr)) { testAt (.putb .sent) with tc := true } = some (false, Reg.known 0xFF) := by
  decide

/-- E4, last row: a zero write of a set flag leaves it free, so either value is admitted. -/
theorem test_putb_zero_free (s : State) :
    (nextOf (seqStep { testAt (.putb (.imm 0)) with tc := true, draws := s.draws })).map (·.tc) =
      some (Config.freeBit s.draws) := by
  rfl

/-- E5: `CLRTC`, `GETB`. -/
theorem test_clrtc_getb :
    afterSeq (fun t => (t.tc, t.sr, t.bitcnt)) { testAt .clrtc with tc := true, sr := Reg.known 0x12, bitcnt := 5 } =
      some (false, Reg.known 0x12, 5) ∧
    afterSeq (fun t => (t.byte, t.tc, t.sr)) { testAt .getb with tc := true, sr := Reg.known 0x9C } =
      some (Reg.known 0x9C, false, Reg.known 0x9C) := by decide

/-- E5: `WAITTC` holds at 0 and leaves the flag at 1. -/
theorem test_waittc : afterSeq (·.todo) (testAt .waittc) = some [.waittc, .next] ∧
    afterSeq (fun t => (t.todo, t.tc)) { testAt .waittc with tc := true } = some ([.next], true) := by decide

/-- E5: `TOFF`, `TON`. -/
theorem test_toff_ton :
    afterSeq (fun t => (t.tcfg, t.bitcnt, t.tc, t.datOe, t.sr, t.dout))
        { testAt .toff with bitcnt := 3, tc := true, datOe := true } =
      some (0x46, 0, false, false, Reg.unspecified, Reg.unspecified) ∧
    afterSeq (·.tcfg) { testAt .ton with en := false } = some 0x47 := by decide

/-- W2, last two lines of the running sum: `DE + 09 = E7`; `STB` at both ends of the buffer (R143). -/
theorem test_acc_stb :
    afterSeq (·.csum) { testAt (.acc (.pay 0 4)) with csum := 0xDE } = some 0xE7 ∧
    afterSeq (fun t => (t.rxEntry 254, t.rxEntry 0)) { testAt (.stb 254) with byte := Reg.known 0x27 } =
      some (Reg.known 0x27, Reg.unspecified) := by decide

/-- U22: after reset a read of `RXBUF` is a draw, and two reads are two draws; a written entry reads as written. -/
theorem test_readPort :
    (State.reset.readPort (.rxbuf 0)).1 = Config.freeByte 0 ∧
    ((State.reset.readPort (.rxbuf 0)).2.readPort (.rxbuf 0)).1 = Config.freeByte 1 ∧
    (({ testState with rxbuf := [(254, 0x27)] } : State).readPort (.rxbuf 254)).1 = 0x27 :=
  ⟨Reg.read_unspecified _, Reg.read_unspecified _, rfl⟩

/-- T5: `HALT` holds. -/
theorem test_halt : afterSeq (fun t => (t.todo, t.pc)) { testAt .halt with pc := 20 } = some ([.halt, .next], 20) := by
  decide

/-! ## The shift engine (95 E1, E2, E8) -/

/-- E1, first and eighth rise. -/
theorem test_receive :
    afterEvent (.clkRise (.level false)) (fun t => (t.sr, t.bitcnt, t.tc)) { testState with clk := false } =
      some (Reg.known 0x52, 1, false) ∧
    afterEvent (.clkRise (.level true)) (fun t => (t.sr, t.bitcnt, t.tc))
        { testState with clk := false, sr := Reg.known 0x89, bitcnt := 7 } =
      some (Reg.known 0xC4, 0, true) := by decide

/-- E2, first pulse: the fall loads the latch, PEER samples it at the rise and it re-enters at bit 7. -/
theorem test_transmit :
    afterEvent .clkFall (·.dout) { testState with sr := Reg.known 0x05 } = some (Reg.known 1) ∧
    afterEvent (.clkRise .z) (fun t => (t.peerBit, t.sr, t.bitcnt))
        { testState with clk := false, datOe := true, dout := Reg.known 1, sr := Reg.known 0x05 } =
      some (true, Reg.known 0x82, 1) := by decide

/-- E8: contention; both samples are free, and they are two. -/
theorem test_contention :
    afterEvent (.clkRise (.level false)) (fun t => (t.sr, t.peerBit))
        { testState with clk := false, datOe := true, dout := Reg.known 1 } =
      some ((Reg.known 0xA5).shiftIn (Config.freeBit 1), Config.freeBit 2) := by
  rfl

/-- E5: edges are ignored while the transport is disabled. -/
theorem test_disabled : afterEvent .clkFall (·.dout) { testState with en := false } = some ⟨0, 0⟩ ∧
    afterEvent (.clkRise (.level true)) (fun t => (t.sr, t.bitcnt)) { testState with en := false, clk := false } =
      some (Reg.known 0xA5, 0) := by decide

/-! ## Reset and the placing of a word -/

/-- R38: the values the spec gives for reset; P5a: nothing has happened yet. -/
theorem test_reset : State.reset.tcfg = 0x47 ∧ State.reset.pc = 0 ∧ State.reset.todo = [] ∧ State.reset.fault = 0 ∧
    State.reset.wire = ⟨false, false, none⟩ := by decide

/-- T1, its fetch: from reset, with `RDYH` placed. -/
theorem test_withFetchWord : (nextOf (step (State.reset.withFetchWord 16 0x2100))).map (·.todo) =
    some [.setrdy true, .next] := by decide

/-- A listing line (R91). -/
theorem test_listing : listingLine 2 (.rawb 0x0A) = "2: 500A  RAWB 0x0A" := by decide

/-! ## Witnesses: for every statement with hypotheses, a state and operands that meet all of them -/

theorem test_witness_encodeInvertsDecode : decode 0x1001 = .ok (.wlvAck true) ∧ decode 0x7FFF = .ok (.dlym 4095) := by
  decide

theorem test_witness_stepRunsDecodedInstruction :
    let s := { testState with queue := [.seq] }
    (nextEvent s).1 = .seq ∧ (nextEvent s).2.seqEnabled = true ∧ (nextEvent s).2.todo = [] ∧
      decode (nextEvent s).2.scriptWord = .ok .rdyh := by decide

theorem test_witness_fetchLoadsExpansion :
    (Instr.rdf 255).wellFormed (entryAt testState.cfg) = true ∧ (Instr.wrf 3).wellFormed (entryAt testState.cfg) = true ∧
    Instr.stby.wellFormed (entryAt testState.cfg) = true := by decide

/-- A fetch that loads and one that faults. -/
theorem test_witness_fetchFrame :
    (∃ t, exec .rdyl testState = .next t ∧ t.todo ≠ []) ∧ ∃ t, exec (.rdf 0) testState = .next t ∧ t.todo = [] :=
  ⟨⟨_, rfl, by decide⟩, ⟨_, rfl, rfl⟩⟩

theorem test_witness_illegalWordFaultsAtFetch :
    let s := { testState with pc := 2 }
    s.seqEnabled = true ∧ s.todo = [] ∧ decode s.scriptWord = .error .operandBitsSet := by decide

/-- Both sides of the directory check at its boundary: 260 and 256. -/
theorem test_witness_payloadPastEndFaults :
    256 < (testState.payloadEntry 2).base.toNat + (testState.payloadEntry 2).len.toNat ∧
    (testState.payloadEntry 3).base.toNat + (testState.payloadEntry 3).len.toNat = 256 := by decide

/-- A faulted state, a step of SEQ, one of another agent, and reset. -/
theorem test_witness_onlyResetClearsFault :
    let s := { testState with fault := 2 }
    s.fault ≠ 0 ∧ (∃ t, act .seq s = .next t) ∧ (∃ t, act .tick s = .next t) ∧ ∃ t, act (.rst true) s = .next t :=
  ⟨by decide, ⟨_, rfl⟩, ⟨_, rfl⟩, ⟨_, rfl⟩⟩

/-- The hypotheses of every statement about one primitive: SEQ may step and the primitive is at the head. -/
theorem test_witness_primitives (p : Prim) : (testAt p).seqEnabled = true ∧ (testAt p).todo = p :: [.next] :=
  ⟨rfl, rfl⟩

/-- Both ends of `RXBUF`, and the last index of the script. -/
theorem test_witness_primitive_bounds :
    (0 : Byte).toNat ≤ 254 ∧ (254 : Byte).toNat ≤ 254 ∧ ¬ (255 : Byte).toNat ≤ 254 ∧
    ({ testAt .next with pc := 255 } : State).pc = 255 ∧ ({ testAt .next with pc := 254 } : State).pc ≠ 255 := by decide

/-- A line that changes, and the rise that sets the flag. -/
theorem test_witness_event_clauses :
    (∃ t, act (.ack true) testState = .next t ∧ t.level .ack ≠ testState.level .ack) ∧
    (∃ t, act (.pwr true) testState = .next t ∧ t.level .pwr ≠ testState.level .pwr) ∧
    (∃ t, act (.clkRise (.level true)) { testState with clk := false, bitcnt := 7 } = .next t ∧ t.tc = true) :=
  ⟨⟨_, rfl, by decide⟩, ⟨_, rfl, by decide⟩, ⟨_, rfl, by decide⟩⟩

/-- Edges while the transport is disabled, a tick while `RST` is released. -/
theorem test_witness_disabled_and_tick :
    let s := { testState with en := false }
    s.en = false ∧ isEdge .clkFall = true ∧ isEdge (.clkRise .z) = true ∧ (∃ t, act .clkFall s = .next t) ∧
      testState.rst = false :=
  ⟨rfl, rfl, rfl, ⟨_, rfl⟩, rfl⟩

theorem test_witness_haltNeverCompletes :
    (testAt .halt).fault = 0 ∧ (testAt .halt).todo = .halt :: [.next] ∧ ∃ t, act .tick (testAt .halt) = .next t :=
  ⟨rfl, rfl, ⟨_, rfl⟩⟩

/-- An idle clock that can fall and one that can rise, with the transport enabled and not. -/
theorem test_witness_edges :
    testState.rst = false ∧ testState.clk = true ∧ testState.en = true ∧ testState.sr.unspec.getLsbD 0 = false ∧
    ({ testState with clk := false } : State).clk = false ∧ ({ testState with en := false } : State).en = false := by
  decide

/-- The rows of R37: not driving and driving either level. -/
theorem test_witness_datLevelTable :
    testState.datOe = false ∧ ({ testState with datOe := true, dout := Reg.known 1 } : State).datOe = true ∧
    ({ testState with datOe := true, dout := Reg.known 1 } : State).dout = Reg.known (BitVec.ofBool true) := by decide

/-- Reception from a counter at zero and from one out of step; transmission. -/
theorem test_witness_pulses :
    (testState.rst = false ∧ testState.en = true ∧ testState.clk = true ∧ testState.datOe = false) ∧
    (({ testState with bitcnt := 3 } : State).bitcnt = 3) ∧
    (let s := { testState with datOe := true }
     s.rst = false ∧ s.en = true ∧ s.clk = true ∧ s.datOe = true ∧ s.bitcnt = 0 ∧ s.sr = Reg.known 0xA5) := by decide

theorem test_witness_otherAgents :
    Event.clkFall ≠ .seq ∧ (∀ b, Event.clkFall ≠ .rst b) ∧ ∃ t, act .clkFall testState = .next t :=
  ⟨by decide, by decide, ⟨_, rfl⟩⟩

/-- Reset asserted, with a `Tick` to come, and released. -/
theorem test_witness_resetHeld :
    (let s := { State.reset with rst := true, queue := [.tick] }
     s.resetHeld ∧ s.rst = true ∧ ∃ t, step s = .next t) ∧
    (State.reset.resetHeld ∧ ∃ t, step { State.reset with queue := [.rst true] } = .next t) :=
  ⟨⟨fun _ => rfl, rfl, ⟨_, rfl⟩⟩, ⟨Bool.noConfusion, ⟨_, rfl⟩⟩⟩

/-- The hypotheses of the completion statements, at index 0 and at the last index that can complete. -/
theorem test_witness_steps_complete :
    testState.seqEnabled = true ∧ testState.pc ≠ 255 ∧ ({ testState with pc := 254 } : State).pc ≠ 255 ∧
    testState.ack = false ∧ ({ testState with ack := true } : State).ack = true ∧
    testState.en = true ∧ testState.clk = true ∧ testState.bitcnt = 0 ∧ testState.tc = false ∧
    (0 : Nat) < (1 : Byte).toNat ∧ (0 : Nat) < (4095 : BitVec 12).toNat := by decide

/-- A raw byte that is not zero may find the flag set. -/
theorem test_witness_rawByte : (testState.tc = false ∨ (0 : Byte) ≠ 0) ∧ (true = false ∨ (0x80 : Byte) ≠ 0) := by decide

/-- A frame of one byte and one of the greatest length. -/
theorem test_witness_readFrame :
    (([0xC4] : List Byte) ≠ [] ∧ ([0xC4] : List Byte).length = (1 : Byte).toNat) ∧
    ((List.replicate 255 (0 : Byte)) ≠ [] ∧ (List.replicate 255 (0 : Byte)).length = (255 : Byte).toNat) :=
  ⟨by decide, ⟨List.cons_ne_nil _ _, List.length_replicate⟩⟩

/-- A flag set at entry is admitted where the length is not 0; `ACK` raised before some bytes, left low before others. -/
theorem test_witness_writeFrame_flag :
    (true = false ∨ (testState.payloadEntry 0).len ≠ 0) ∧
    ([true, false, true, false, false, true] : List Bool).length = (testState.payloadEntry 0).len.toNat + 1 := by decide

/-- Payloads of length 0, 5, 6 up to the end of `PROM`, and 255. -/
theorem test_witness_writeFrame :
    ([4, 0, 3, 5] : List (BitVec 4)).map (fun k => ((testState.payloadEntry k).usable, (testState.payloadEntry k).len)) =
      [(true, 0), (true, 5), (true, 6), (true, 255)] := by decide

theorem test_witness_transportReset :
    ∀ e ∈ [Event.clkFall, .clkRise (.level true), .clkFall], isEdge e = true := by decide

/-- A run without reset from `STBY`, with `DAT` released, and a fall that changes `DO`, which nothing shows. -/
theorem test_witness_standby :
    testState.seqEnabled = true ∧ testState.datOe = false ∧ testState.dly = 0 ∧
    (∀ e ∈ [Event.tick, .ack true, .seq], isEdge e = false) ∧
    (∀ e ∈ [Event.tick, .clkFall, .seq], isReset e = false) ∧
    ∃ u, runEvents [.tick, .clkFall, .seq] (testAt .halt) = .next u ∧ u.dout = Reg.known 1 ∧
      (testAt .halt).dout = Reg.known 0 ∧ u.wire = (testAt .halt).wire :=
  ⟨rfl, rfl, rfl, by decide, by decide, ⟨_, rfl, rfl, rfl, rfl⟩⟩

/-- A state with every table filled that meets the invariant, and a step from it. -/
theorem test_witness_invariant :
    let s := { testAt (.ldt 4095000) with rxbuf := [(0, 0x01), (254, 0x02)], queue := [.seq] }
    s.Inv ∧ ∃ t, step s = .next t :=
  ⟨⟨⟨by decide, by decide, by decide⟩, by decide, by decide, by decide, by decide, by decide, by decide, by decide,
    by decide⟩, ⟨_, rfl⟩⟩

/-- A step of any agent but reset: `NEXT`, which moves `PC`, and one that writes a register. -/
theorem test_witness_act :
    (∃ t, act .seq (testAt .next) = .next t ∧ t.pc ≠ (testAt .next).pc) ∧
    (∃ t, act .seq (testAt (.setrdy true)) = .next t ∧ t.rdy ≠ (testAt (.setrdy true)).rdy) ∧
    Event.seq ≠ .rst true :=
  ⟨⟨_, rfl, by decide⟩, ⟨_, rfl, by decide⟩, by decide⟩

/-- Inside a transmission the line is driven and will be released. -/
theorem test_witness_releases :
    let s := { testState with datOe := true, todo := [.waittc, .setdir false, .putb .sent, .next], queue := [.seq] }
    s.releases ∧ (∃ t, step s = .next t) ∧ testState.releases ∧ testState.todo = [] :=
  ⟨rfl, ⟨_, rfl⟩, rfl, rfl⟩

/-- A well-formed script, one step into its run. -/
theorem test_witness_wellFormedScript :
    let s := { testState with cfg := { testCfg with script := [(0, 0x2100), (1, 0x9000)] }, queue := [.seq] }
    scriptWellFormed s.cfg = true ∧ s.pc = 0 ∧ s.todo = [] ∧ s.fault = 0 ∧ ∃ t, Sys2Proof.core.run 1 s = .next t :=
  ⟨by decide, rfl, rfl, rfl, ⟨_, rfl⟩⟩

/-- From a group of eight that lacks its last rise, SEQ and PEER reach the reply of a read frame of one byte. -/
theorem test_witness_readFrameChecksum :
    let s := { testState with
      cfg := { testCfg with script := [(0, 0x3001)] }, clk := false, bitcnt := 7, ack := true
      queue := seqs 4 ++ [.clkRise (.level true)] ++ seqs 6 ++ [.ack false] ++ seqs 3 ++ [.ack true] ++ seqs 1 }
    s.todo = [] ∧ ∃ t, Sys2Proof.core.run 17 s = .next t ∧ decode t.scriptWord = .ok (.rdf 1) ∧
      t.todo = writeByte .csumr ++ [.next] :=
  ⟨rfl, ⟨_, rfl, rfl, rfl⟩⟩

/-- The same for the checksum of a written frame without payload bytes. -/
theorem test_witness_writeFrameChecksum :
    let s := { testState with
      cfg := { testCfg with script := [(0, 0x4004)], tSettle := 0 }, clk := false, bitcnt := 7, ack := true
      queue := seqs 2 ++ [.ack false] ++ seqs 5 ++ [.clkRise .z] ++ seqs 9 }
    s.todo = [] ∧ ∃ t, Sys2Proof.core.run 18 s = .next t ∧ decode t.scriptWord = .ok (.wrf 4) ∧
      t.todo = writeByte .csumr ++ [.next] :=
  ⟨rfl, ⟨_, rfl, rfl, rfl⟩⟩

/-- States that meet the invariants of a script and of the frames under way: between steps, and inside one. -/
theorem test_witness_frameInvariants :
    testState.readSums ∧ testState.writeSums ∧
    (let s := { testState with
       cfg := { testCfg with script := [(0, 0x2100), (1, 0x9000)] }, todo := [.setrdy true, .next], queue := [.seq] }
     s.OnScript ∧ ∃ t, step s = .next t) :=
  ⟨⟨.inl rfl, fun _ _ h => absurd rfl h⟩, ⟨.inl rfl, fun _ _ h => absurd rfl h⟩,
    ⟨by decide, rfl, by decide, .inr ⟨.rdyh, by decide, List.suffix_refl _⟩, fun h => absurd h (by decide)⟩, ⟨_, rfl⟩⟩

/-- SEQ at the end of a read frame of one byte: the byte `C4` is stored and summed. -/
theorem test_witness_readSums :
    let s := { testState with
      cfg := { testCfg with script := [(0, 0x3001)] }, csum := 0xC4, rxbuf := [(0, 0xC4)], todo := readReply ++ [Prim.next] }
    s.readSums :=
  ⟨.inr ⟨.rdf 1, by decide, ⟨[.clrsum] ++ readLastByte 0, rfl⟩⟩, fun n hn _ _ => by
    obtain rfl : n = 1 := by
      have h : some (Instr.rdf 1) = some (.rdf n) := hn
      simpa using h.symm
    refine ⟨[0xC4], rfl, fun j b hb => ?_, rfl⟩
    match j with
    | ⟨0, _⟩ => cases hb; rfl
    | ⟨_ + 1, _⟩ => cases hb⟩

/-- A fair execution: SEQ and TMR by turns, `ACK` low for ever, SEQ hanging at a wait for `ACK` high; and one in which SEQ
passes a `WAITT` and then stands at `HALT`. -/
theorem test_witness_fair :
    let ev : Nat → Event := fun n => if n % 2 = 0 then .seq else .tick
    (isExecution ev (fun _ => testAt (.waitl .ack true)) ∧ Fair ev (fun _ => testAt (.waitl .ack true)) ∧
      standsAt (fun _ => testAt (.waitl .ack true)) 0 (.waitl .ack true)) ∧
    (let r : Nat → State := fun n => { testState with todo := if n = 0 then [.waitt, .halt] else [.halt] }
     isExecution ev r ∧ Fair ev r ∧ (∀ m, 0 ≤ m → (r m).seqEnabled = true) ∧ (r 0).todo = .waitt :: [.halt]) := by
  have fair : ∀ r : Nat → State, Fair (fun n => if n % 2 = 0 then Event.seq else .tick) r := fun r =>
    ⟨fun n => ⟨2 * n, by omega, .inl (if_pos (by omega))⟩, fun n => ⟨2 * n + 1, by omega, if_neg (by omega)⟩⟩
  refine ⟨⟨fun n => ?_, fair _, ⟨[Prim.next], fun _ _ => ⟨rfl, rfl⟩⟩⟩, ⟨fun n => ?_, fair _, fun _ _ => rfl, rfl⟩⟩
  · rcases Nat.mod_two_eq_zero_or_one n with h | h <;> simp only [h] <;> rfl
  · match n with
    | 0 => rfl
    | n + 1 => rcases Nat.mod_two_eq_zero_or_one (n + 1) with h | h <;> simp only [h] <;> rfl

/-- Two states that differ in what the wire has carried. -/
theorem test_witness_sameButData :
    sameButData testState { testState with sr := Reg.known 0, csum := 0x11 } ∧ ∃ t, act .seq testState = .next t :=
  ⟨rfl, ⟨_, rfl⟩⟩

theorem test_witness_referenceScript :
    let c := { testCfg with script := layScript (refSteps 100 100 0) 0, pdir := [(0, ⟨0, 5⟩), (1, ⟨5, 21⟩)] }
    c.script = layScript (refSteps 100 100 0) 0 ∧ c.pdir = [(0, ⟨0, 5⟩), (1, ⟨5, 21⟩)] :=
  ⟨rfl, rfl⟩

end Sys2Proof.Machine
end

/-! PROOFS. The statements of `spec/00_scope.md`: a SEQ step runs the decoded word (R160), `PUTB` (R127), and where a fair
execution can stand for ever (R11, R104, R198). -/

namespace Sys2Proof.Machine

/-! ## Which primitives hold, and when (R9) -/

@[simp] theorem completeIff_eq_hold {cond : Bool} {s : State} : completeIff cond s = .hold ↔ cond = false := by
  cases cond <;> simp [completeIff]

/-- Only `HALT` and the three blocking primitives ever hold. -/
theorem perform_hold_kind {p : Prim} {s : State} (h : perform p s = .hold) :
    p = .halt ∨ p = .waitt ∨ p = .waittc ∨ ∃ l v, p = .waitl l v := by
  cases p with
  | halt => exact .inl rfl
  | waitt => exact .inr (.inl rfl)
  | waittc => exact .inr (.inr (.inl rfl))
  | waitl l v => exact .inr (.inr (.inr ⟨l, v, rfl⟩))
  | stb i =>
    simp only [perform, doStb] at h
    split at h <;> cases h
  | next =>
    simp only [perform, doNext] at h
    split at h <;> cases h
  | _ => cases h

theorem perform_waitt_hold {s : State} : perform .waitt s = .hold ↔ s.dly ≠ 0 := by
  simp [perform, doWaitt]

theorem perform_waittc_hold {s : State} : perform .waittc s = .hold ↔ s.tc = false := by
  simp [perform, doWaittc]

theorem perform_waitl_hold {l : Line} {v : Bool} {s : State} : perform (.waitl l v) s = .hold ↔ s.level l ≠ v := by
  simp [perform, doWaitl]

/-- A SEQ step that leaves the primitive it tried at the head of `TODO` was a hold. -/
theorem perform_hold_of_todo_kept {p : Prim} {rest : List Prim} {s t : State} (he : s.seqEnabled = true)
    (hs : s.todo = p :: rest) (h : seqStep s = .next t) (ht : t.todo = p :: rest) : perform p s = .hold := by
  rw [seqStep_execute he hs, execute] at h
  split at h
  · cases h
    simp at ht
  · assumption
  · cases h
    simp at ht
  · cases h

/-- SEQ at `WAITT`: past it where the delay has run out, else nothing changes (R104). -/
theorem seqStep_waitt {s : State} {rest : List Prim} (he : s.seqEnabled = true) (hs : s.todo = .waitt :: rest) :
    seqStep s = .next (if s.dly = 0 then { s with todo := rest } else s) := by
  split
  · exact seqStep_advance he hs (by simp [perform, doWaitt, completeIff, *])
  · exact seqStep_hold he hs (perform_waitt_hold.2 ‹_›)

/-! ## Single events, seen from a standing SEQ -/

/-- Only SEQ and the assertion of `RST` write `TODO` (R26, R196, R210). -/
theorem act_todo_of_ne_seq {e : Event} {s t : State} (h : act e s = .next t) (he : e ≠ .seq)
    (ht : t.seqEnabled = true) : t.todo = s.todo := by
  cases e with
  | seq => exact absurd rfl he
  | rst level =>
    cases h
    cases level
    · rfl
    · cases ht
  | _ => rw [act_keeps h (by simp) (by simp)]

/-- While SEQ is at `WAITT` no event raises the delay counter (R34, R105). -/
theorem act_dly_le_of_waitt {e : Event} {s t : State} {rest : List Prim} (h : act e s = .next t)
    (hs : s.seqEnabled = true) (hw : s.todo = .waitt :: rest) : t.dly.toNat ≤ s.dly.toNat := by
  cases e with
  | seq =>
    cases (seqStep_waitt hs hw).symm.trans h
    split <;> exact le_rfl
  | tick =>
    cases h
    rw [tick_toNat ((State.seqEnabled_iff s).1 hs).1]
    exact Nat.sub_le _ _
  | clkFall =>
    cases h
    rw [clkFall_keeps]
  | clkRise drv =>
    cases h
    rw [clkRise_keeps]
  | rst level =>
    cases h
    cases level <;> simp [setRst]
  | _ =>
    cases h
    exact le_rfl

/-! ## Endless executions (R11, R198) -/

/-- A number that never grows from some time on, and again and again goes down by one, is 0 from some time on. -/
theorem eventually_zero_of_countdown {f : Nat → Nat} {n : Nat} (hle : ∀ m, n ≤ m → f (m + 1) ≤ f m)
    (hdown : ∀ k, n ≤ k → ∃ m, k ≤ m ∧ f (m + 1) = f m - 1) : ∃ k, ∀ m, k ≤ m → f m = 0 := by
  have anti : AntitoneOn f {m | n ≤ m} := antitoneOn_nat_Ici_of_succ_le hle
  have key : ∀ d k, n ≤ k → f k ≤ d → ∃ k', ∀ m, k' ≤ m → f m = 0 := by
    intro d
    induction d with
    | zero =>
      intro k hk hd
      exact ⟨k, fun m hm => Nat.le_zero.1 ((anti hk (hk.trans hm) hm).trans hd)⟩
    | succ d ih =>
      intro k hk hd
      obtain ⟨m, hm, hdown⟩ := hdown k hk
      have hfm : f m ≤ f k := anti hk (hk.trans hm) hm
      exact ih (m + 1) (by omega) (by omega)
  exact key (f n) n le_rfl le_rfl

section Executions

variable {ev : Nat → Event} {r : Nat → State} {n : Nat}

theorem isExecution_seq (hx : isExecution ev r) (he : ev n = .seq) : seqStep (r n) = .next (r (n + 1)) := by
  have h := hx n
  rwa [he] at h

theorem isExecution_tick (hx : isExecution ev r) (he : ev n = .tick) : r (n + 1) = tick (r n) := by
  have h := hx n
  rw [he] at h
  exact (Host.Outcome.next.inj h).symm

/-- Where SEQ stands for ever it tries the primitive, and it holds, again and again. -/
theorem standsAt_holds_again {p : Prim} (hx : isExecution ev r) (hf : Fair ev r) (hs : standsAt r n p) (k : Nat) :
    ∃ m, k ≤ m ∧ perform p (r m) = .hold := by
  obtain ⟨rest, hs⟩ := hs
  obtain ⟨m, hm, hev⟩ := hf.seq (max n k)
  obtain ⟨htodo, hen⟩ := hs m (by omega)
  have hseq : ev m = .seq := hev.resolve_right (by simp [hen])
  have hkept := (hs (m + 1) (by omega)).1
  exact ⟨m, by omega, perform_hold_of_todo_kept hen htodo (isExecution_seq hx hseq) hkept⟩

/-- SEQ never stands at `WAITT` for ever: the ticks take the delay counter to 0, and nothing raises it (R104, R105). -/
theorem not_standsAt_waitt (hx : isExecution ev r) (hf : Fair ev r) : ¬ standsAt r n .waitt := by
  intro hs
  have ⟨rest, hstand⟩ := hs
  have hle : ∀ m, n ≤ m → (r (m + 1)).dly.toNat ≤ (r m).dly.toNat := fun m hm =>
    act_dly_le_of_waitt (hx m) (hstand m hm).2 (hstand m hm).1
  have hdown : ∀ k, n ≤ k → ∃ m, k ≤ m ∧ (r (m + 1)).dly.toNat = (r m).dly.toNat - 1 := by
    intro k hk
    obtain ⟨m, hm, htick⟩ := hf.tick k
    have hrst := ((State.seqEnabled_iff _).1 (hstand m (hk.trans hm)).2).1
    exact ⟨m, hm, by rw [isExecution_tick hx htick, tick_toNat hrst]⟩
  obtain ⟨k, hzero⟩ := eventually_zero_of_countdown (f := fun m => (r m).dly.toNat) hle hdown
  obtain ⟨m, hm, hhold⟩ := standsAt_holds_again hx hf hs k
  exact perform_waitt_hold.1 hhold (BitVec.eq_of_toNat_eq (hzero m hm))

/-- A `WAITT` at which SEQ is not stopped is completed by a later SEQ step, which changes nothing else (R104). -/
theorem waitt_completes {rest : List Prim} (hx : isExecution ev r) (hf : Fair ev r)
    (hen : ∀ m, n ≤ m → (r m).seqEnabled = true) (hw : (r n).todo = .waitt :: rest) :
    ∃ m, n ≤ m ∧ ev m = .seq ∧ (r m).todo = .waitt :: rest ∧ r (m + 1) = { r m with todo := rest } := by
  by_contra hno
  have hstand : ∀ m, n ≤ m → (r m).todo = .waitt :: rest := by
    intro m hm
    induction m, hm using Nat.le_induction with
    | base => exact hw
    | succ m hm ih =>
      by_cases hseq : ev m = .seq
      · have hnext := Host.Outcome.next.inj ((seqStep_waitt (hen m hm) ih).symm.trans (isExecution_seq hx hseq))
        split at hnext
        · exact absurd ⟨m, hm, hseq, ih, hnext.symm⟩ hno
        · exact hnext ▸ ih
      · exact (act_todo_of_ne_seq (hx m) hseq (hen (m + 1) (by omega))).trans ih
  exact not_standsAt_waitt hx hf ⟨rest, fun m hm => ⟨hstand m hm, hen m hm⟩⟩

/-- The primitives at which SEQ can stand for ever, and what the world around SEQ then does again and again (R198). -/
theorem standsAt_cases {p : Prim} (hx : isExecution ev r) (hf : Fair ev r) (hs : standsAt r n p) :
    p = .halt ∨ (p = .waittc ∧ ∀ k, ∃ m, k ≤ m ∧ (r m).tc = false) ∨
      ∃ l v, p = .waitl l v ∧ ∀ k, ∃ m, k ≤ m ∧ (r m).level l ≠ v := by
  have hagain := standsAt_holds_again hx hf hs
  obtain ⟨_, _, hhold⟩ := hagain n
  obtain rfl | rfl | rfl | ⟨l, v, rfl⟩ := perform_hold_kind hhold
  · exact .inl rfl
  · exact absurd hs (not_standsAt_waitt hx hf)
  · exact .inr (.inl ⟨rfl, fun k => (hagain k).imp fun _ h => h.imp_right perform_waittc_hold.1⟩)
  · exact .inr (.inr ⟨l, v, rfl, fun k => (hagain k).imp fun _ h => h.imp_right perform_waitl_hold.1⟩)

end Executions

/-- Settles O60: SEQ can stand for ever only where it holds again and again, and a `WAITT` is not such a place because the
ticks run its delay down. -/
theorem fairExecutionsHangOnPeerOnly : Obligations.FairExecutionsHangOnPeerOnly :=
  ⟨fun _ _ _ _ => standsAt_cases, fun _ _ _ _ => waitt_completes⟩

/-! ## One step of SEQ -/

/-- Settles O6: the next event is SEQ's, SEQ fetches, and the word is legal. -/
theorem stepRunsDecodedInstruction : Obligations.StepRunsDecodedInstruction := by
  intro s i hseq hen htodo hdecode
  calc step s
      = seqStep (nextEvent s).2 := by rw [step, hseq, act]
    _ = fetch (nextEvent s).2 := seqStep_fetch hen htodo
    _ = exec i (nextEvent s).2 := fetch_legal hdecode

/-- A zero write leaves a set flag at the draw (R127). -/
theorem tcAfterWrite_zero_of_set (draw : Bool) : tcAfterWrite 0 true draw = draw := by
  simp [tcAfterWrite]

/-- Settles O24: the value written is the source's, and the flag follows the write rule of R127 with the step's own draw. -/
theorem putbWritesAndClearsFlag : Obligations.PutbWritesAndClearsFlag := by
  intro s src rest hen htodo
  refine ⟨s.val src, tcAfterWrite (s.val src) s.tc (s.drawBit 0), seqStep_advance hen htodo rfl, ?_,
    fun hv => tcAfterWrite_of_ne hv _ _, fun htc => ?_, fun hv htc => ?_⟩
  · cases src with
    | byte =>
      intro u hu
      simp [State.val, hu]
    | _ => rfl
  · rw [htc, tcAfterWrite_of_clear]
  · rw [hv, htc, tcAfterWrite_zero_of_set]
    rfl

end Sys2Proof.Machine

/-! PROOFS. The state and its registers: who writes each register (R20 to R35), `DAT` and its direction (R30, R37), and
what reset leaves (R38, R210). -/

namespace Sys2Proof.Machine

/-! ## The outcomes of a SEQ step, seen from the registers (R160) -/

/-- Every way a SEQ step can end in a next state: nothing changes, a primitive completes, a fault is recorded where none
was, or an expansion is loaded between two script steps. -/
theorem seqStep_outcomes {s t : State} (h : seqStep s = .next t) :
    t = s ∨
    (∃ p rest u, s.todo = p :: rest ∧ perform p s = .advance u ∧ t = { u with todo := rest }) ∨
    (s.fault = 0 ∧ ∃ c, t = s.raise c) ∨
    (s.todo = [] ∧ ∃ i, t = s.load (expand s i)) := by
  obtain rfl | ⟨_, hdone⟩ | ⟨hen, htrap⟩ | ⟨hen, htodo, i, _, hexec⟩ := seqStep_cases h
  · exact .inl rfl
  · exact .inr (.inl hdone)
  · exact .inr (.inr (.inl ⟨((State.seqEnabled_iff s).1 hen).2, htrap⟩))
  · have hfault := ((State.seqEnabled_iff s).1 hen).2
    obtain hload | ⟨_, _, htrap⟩ | ⟨_, _, htrap⟩ := exec_cases hexec
    · exact .inr (.inr (.inr ⟨htodo, i, hload⟩))
    · exact .inr (.inr (.inl ⟨hfault, _, htrap⟩))
    · exact .inr (.inr (.inl ⟨hfault, _, htrap⟩))

/-- What a SEQ step tries is the head of `TODO`. -/
theorem trying_of_head {s : State} {p : Prim} {rest : List Prim} {kind : Prim → Bool} (hs : s.todo = p :: rest)
    (hp : kind p = true) : trying .seq s kind :=
  ⟨rfl, p, rest, hs, hp⟩

/-! ## The data line is released again (R30, R131, R193, R232) -/

/-- A list of primitives that leaves a released data line released. -/
def EndsReleased (l : List Prim) : Prop := l.foldl datOeAfter false = false

theorem EndsReleased.append {l m : List Prim} (hl : EndsReleased l) (hm : EndsReleased m) : EndsReleased (l ++ m) := by
  rw [EndsReleased, List.foldl_append, hl, hm]

/-- Primitives that never turn the data line to output. -/
theorem endsReleased_of_not_mem {l : List Prim} (h : Prim.setdir true ∉ l) : EndsReleased l := by
  induction l with
  | nil => rfl
  | cons p l ih =>
    have hp : datOeAfter false p = false := by
      cases p with
      | setdir d => cases d <;> simp_all [datOeAfter]
      | _ => rfl
    rw [EndsReleased, List.foldl_cons, hp]
    exact ih fun hm => h (List.mem_cons_of_mem p hm)

/-- A transmission ends with the line released (R131). -/
theorem endsReleased_writeByte (src : Src) : EndsReleased (writeByte src) := rfl

/-- The read loop only ever turns the line to input (R145). -/
theorem endsReleased_readLoop (c i : Nat) : EndsReleased (readLoop c i) := by
  refine endsReleased_of_not_mem ?_
  induction c generalizing i with
  | zero => simp [readLoop]
  | succ c ih => simp [readLoop, readLoopByte, readByte, toggleReady, ih]

theorem endsReleased_settleCycle (t : Byte) : EndsReleased (settleCycle t) := rfl

theorem endsReleased_writeLoop (t : Byte) (k : BitVec 4) (c i : Nat) : EndsReleased (writeLoop t k c i) := by
  induction c generalizing i with
  | zero => rfl
  | succ c ih =>
    have hacc : EndsReleased [.acc (.pay k (BitVec.ofNat 8 i))] := rfl
    exact (((endsReleased_settleCycle t).append (endsReleased_writeByte _)).append hacc).append (ih (i + 1))

/-- Every expansion that starts with the line released ends so (R161). -/
theorem endsReleased_expand (s : State) (i : Instr) : EndsReleased (expand s i) := by
  cases i with
  | rdf n =>
    have hclr : EndsReleased [.clrsum] := rfl
    have hlast : EndsReleased (readLastByte (n.toNat - 1)) := rfl
    have hreply : EndsReleased readReply := rfl
    exact ((hclr.append (endsReleased_readLoop _ _)).append hlast).append hreply
  | wrf k =>
    have hlen : EndsReleased (waitFallingEdge ++ toggleReady ++ writeByte (.imm (s.payloadEntry k).len) ++ [.clrsum]) :=
      rfl
    exact ((hlen.append (endsReleased_writeLoop _ _ _ _)).append (endsReleased_settleCycle _)).append
      (endsReleased_writeByte _)
  | _ => rfl

theorem State.releases_of_todo_nil {s : State} (hs : s.todo = []) : s.releases ↔ s.datOe = false := by
  simp [State.releases, hs]

theorem State.releases_raise (s : State) (c : FaultCode) : (s.raise c).releases := rfl

/-- A script step fetched with the line released ends with it released. -/
theorem State.releases_load_expand {s : State} (h : s.datOe = false) (i : Instr) : (s.load (expand s i)).releases := by
  have hall : EndsReleased (expand s i ++ [.next]) := (endsReleased_expand s i).append (m := [.next]) rfl
  rw [State.releases, State.load_datOe, h]
  exact hall

/-- A primitive that completes writes the direction its own place in `TODO` says. -/
theorem State.releases_of_advance {p : Prim} {rest : List Prim} {s u : State} (hs : s.todo = p :: rest)
    (hp : perform p s = .advance u) (h : s.releases) : State.releases { u with todo := rest } := by
  obtain ⟨-, -, -, -, -, -, hoe, -⟩ := perform_writes hp
  rwa [State.releases, hs, List.foldl_cons, ← hoe] at h

theorem seqStep_keeps_releases {s t : State} (hs : s.releases) (h : seqStep s = .next t) : t.releases := by
  obtain rfl | ⟨p, rest, u, htodo, hp, rfl⟩ | ⟨_, c, rfl⟩ | ⟨htodo, i, rfl⟩ := seqStep_outcomes h
  · exact hs
  · exact State.releases_of_advance htodo hp hs
  · exact s.releases_raise c
  · exact State.releases_load_expand ((State.releases_of_todo_nil htodo).1 hs) i

theorem act_keeps_releases {e : Event} {s t : State} (hs : s.releases) (h : act e s = .next t) : t.releases := by
  cases e with
  | seq => exact seqStep_keeps_releases hs h
  | rst level =>
    cases h
    cases level
    · exact hs
    · rfl
  | _ =>
    rw [act_keeps h (by simp) (by simp)]
    exact hs

/-- Settles O54: every event keeps the invariant, because every expansion ends with the line released and `TRAP` and reset
release it; between steps nothing is left to run. -/
theorem dataLineIsAlwaysReleasedAgain : Obligations.DataLineIsAlwaysReleasedAgain :=
  ⟨fun _ _ => step_keeps_of_act (fun _ _ _ h => h) fun _ _ _ => act_keeps_releases,
    fun _ h htodo => (State.releases_of_todo_nil htodo).1 h⟩

/-! ## `PC` (R25, R162, R164) -/

/-- One step of SEQ leaves `PC` alone, or is a `NEXT` below the last index. -/
theorem seqStep_pc {s t : State} (h : seqStep s = .next t) :
    t.pc = s.pc ∨ (trying .seq s (· == .next) ∧ s.pc ≠ 255 ∧ t.pc = s.pc + 1) := by
  obtain rfl | ⟨p, rest, u, htodo, hp, rfl⟩ | ⟨_, c, rfl⟩ | ⟨_, i, rfl⟩ := seqStep_outcomes h
  · exact .inl rfl
  · obtain ⟨hother, hnext⟩ := perform_pc hp
    by_cases hn : p = .next
    · exact .inr ⟨trying_of_head htodo (by simp [hn]), hnext hn⟩
    · exact .inl (hother hn)
  · exact .inl rfl
  · exact .inl rfl

/-- An index below the last one steps forward without wrapping. -/
theorem pc_succ_toNat {pc : Byte} (h : pc ≠ 255) : pc.toNat < 255 ∧ (pc + 1).toNat = pc.toNat + 1 := by
  bv_omega

/-- Settles O52: only a `NEXT` of SEQ moves `PC`, and at the last index it faults instead. -/
theorem pcOnlyStepsForward : Obligations.PcOnlyStepsForward := by
  intro e s t h hr
  cases e with
  | seq =>
    refine (seqStep_pc h).imp_right ?_
    rintro ⟨htry, hlast, hpc⟩
    exact ⟨htry, hpc ▸ pc_succ_toNat hlast⟩
  | rst level =>
    cases h
    cases level
    · exact .inl rfl
    · exact absurd rfl hr
  | _ =>
    left
    rw [act_keeps h (by simp) (by simp)]

/-! ## The writers of the other registers (R21 to R23, R27 to R35) -/

/-- The direction of the data line changes only at `TOFF` and at a `SETDIR` of the new direction (R30). -/
theorem writer_of_datOeAfter_ne {oe : Bool} {p : Prim} (h : datOeAfter oe p ≠ oe) :
    p = .toff ∨ p = .setdir (datOeAfter oe p) := by
  cases p with
  | setdir d => exact .inr rfl
  | toff => exact .inl rfl
  | _ => exact absurd rfl h

/-- Settles O53: of SEQ's steps only a completed primitive and a fault write registers, and each other agent has its own
few. -/
theorem registersHaveTheirWriters : Obligations.RegistersHaveTheirWriters := by
  intro e s t h hr
  cases e with
  | seq =>
    obtain rfl | ⟨p, rest, u, htodo, hp, rfl⟩ | ⟨hfault, c, rfl⟩ | ⟨_, i, rfl⟩ := seqStep_outcomes h
    · simp
    · obtain ⟨-, hfault, hfpc, -⟩ := perform_keeps hp
      obtain ⟨hrdy, hbyte, hcsum, hrxbuf, hdly, hen, hoe, hsr, hdout, hbitcnt, htc, -⟩ := perform_writes hp
      have tries : ∀ {kind : Prim → Bool}, kind p = true → trying .seq s kind := trying_of_head htodo
      refine ⟨fun hn => tries ?_, fun hn => tries ?_, fun hn => tries ?_, fun hn => tries ?_, fun hn => .inr (tries ?_),
        fun hn => .inr (tries ?_), fun hn => tries ?_, fun hn => .inr (tries ?_), fun hn => .inr (tries ?_),
        fun hn => .inr (tries ?_), fun hn => .inr (tries ?_), fun hn => absurd hfault hn, fun hn => absurd hfpc hn,
        fun _ => rfl⟩
      · simpa using hrdy.resolve_left hn
      · simpa using hbyte.resolve_left hn
      · obtain rfl | ⟨src, rfl⟩ := hcsum.resolve_left hn <;> rfl
      · obtain ⟨i, rfl⟩ := hrxbuf.resolve_left hn
        rfl
      · simpa using hdly.resolve_left hn
      · obtain rfl | rfl | rfl | ⟨src, rfl⟩ := (htc.resolve_left hn).2 <;> rfl
      · simpa using hen.resolve_left hn
      · have hnew := writer_of_datOeAfter_ne (hoe ▸ hn)
        simpa [hoe] using hnew
      · obtain rfl | ⟨src, rfl⟩ := hsr.resolve_left hn <;> rfl
      · simpa using hdout.resolve_left hn
      · simpa using hbitcnt.resolve_left hn
    · have hcode : c.code ≠ 0#3 := c.code_ne_zero
      simp [hfault, hcode]
    · simp
  | rst level =>
    cases h
    cases level
    · simp [setRst]
    · exact absurd rfl hr
  | tick =>
    cases h
    rw [tick_keeps]
    simp
  | clkFall =>
    cases h
    rw [clkFall_keeps]
    simp
  | clkRise drv =>
    cases h
    rw [clkRise_keeps]
    simp [isEdge]
  | _ =>
    cases h
    simp [setAck, setPwr]

/-! ## The level on `DAT` (R37) -/

theorem State.doutNow_of_known {s : State} {o : Bool} (h : s.dout = Reg.known (BitVec.ofBool o)) : s.doutNow = o := by
  simp [State.doutNow, h]

/-- Where somebody fixes the level, both sides see that level. -/
theorem State.samples_of_fixed {s : State} {drv : Drive} (h : s.datOpen drv = false) :
    s.pad drv = s.datFixed drv ∧ s.peerSample drv = s.datFixed drv := by
  simp [State.pad, State.peerSample, h]

/-- Where nobody does, each side has a free bit of its own. -/
theorem State.samples_of_open {s : State} {drv : Drive} (h : s.datOpen drv = true) :
    s.pad drv = Config.freeBit (s.draws + 1) ∧ s.peerSample drv = Config.freeBit (s.draws + 2) := by
  simp [State.pad, State.peerSample, State.drawBit, h]

/-- Settles O31: in each row one side fixes the level for both, or each side has its own free bit. -/
theorem datLevelTable : Obligations.DatLevelTable := by
  intro s b o
  refine ⟨fun hoe => ?_, fun hoe hdout => ⟨?_, fun hb => ?_, fun hb => ?_⟩, fun hoe => ?_⟩
  · exact State.samples_of_fixed (by simp [State.datOpen, hoe])
  · simpa [State.datFixed, State.doutNow_of_known hdout] using
      State.samples_of_fixed (s := s) (drv := .z) (by simp [State.datOpen, hoe])
  · subst hb
    exact State.samples_of_fixed (by simp [State.datOpen, State.doutNow_of_known hdout])
  · exact State.samples_of_open (by simp [State.datOpen, hoe, State.doutNow_of_known hdout, hb])
  · exact State.samples_of_open (by simp [State.datOpen, hoe])

/-! ## Reset (R38, R210, R211) -/

/-- An entry of `RXBUF` nothing has been stored at reads as the draw (R35, R7). -/
theorem State.read_rxEntry_of_empty {s : State} (h : s.rxbuf = []) (i : Fin rxbufSize) (d : Byte) :
    (s.rxEntry i).read d = d := by
  simp [State.rxEntry, h, unwrittenEntry]

/-- `TCFG` of an enabled transport, with its hardwired bits (R29). -/
theorem State.tcfg_of_enabled {s : State} (h : s.en = true) : s.tcfg = 0x47 := by
  rw [State.tcfg, h]
  rfl

/-- Settles O36: the state left is the reset state with the old configuration, pins and bookkeeping. -/
theorem resetLeavesResetValues : Obligations.ResetLeavesResetValues := by
  intro s
  have hrx : s.enterReset.leaveReset.rxbuf = [] := rfl
  refine ⟨s.enterReset.leaveReset, rfl, rfl, rfl, rfl, State.tcfg_of_enabled rfl, rfl, rfl, rfl, rfl, rfl, rfl, rfl, fun d => ?_,
    State.read_rxEntry_of_empty hrx, rfl, rfl, fun i => ?_⟩
  · exact ⟨Reg.read_unspecified d, Reg.read_unspecified d, Reg.read_unspecified d⟩
  · simp only [State.readPort, State.read_rxEntry_of_empty hrx]
    rfl

theorem State.reset_inv : State.reset.Inv := by
  obtain ⟨hrxbuf, hscript, hpdir, hprom⟩ := State.reset_tables_wf
  exact {
    cfg := ⟨hscript, hpdir, hprom⟩
    rxbuf := hrxbuf
    sr := Reg.unspecified_wf
    dout := Reg.known_wf 0
    byte := Reg.unspecified_wf
    fpc := Reg.unspecified_wf
    todo := by simp [State.reset]
    dly := by decide
    fault := by decide }

/-- Settles O48: the tables are empty, the registers known or wholly unspecified, and `RST` is released. -/
theorem invariantAtReset : Obligations.InvariantAtReset :=
  ⟨State.reset_inv, rfl, fun hrst => absurd hrst (by decide)⟩

end Sys2Proof.Machine

/-! PROOFS. The invariant of every step (R63, R74, R103, R143, R191), the configuration (R76, R212), the placed word
(R60, R160), the bytes of a written frame (R67, R146) and what received data cannot steer (R164). -/

namespace Sys2Proof.Machine

/-! ## Operands of the expansions are in range (R103, R143) -/

/-- A settle delay is one of 0 to 255 microseconds (R83). -/
theorem settleMicros_toNat (d : Byte) : (settleMicros d).toNat = d.toNat := by
  simp [settleMicros, Nat.mod_eq_of_lt (show d.toNat < 4194304 by omega)]

theorem microsCount_toNat (c : BitVec 12) : (microsCount c).toNat = c.toNat := by
  simp [microsCount, Nat.mod_eq_of_lt (show c.toNat < 4194304 by omega)]

/-- The widest `DLYM` count still fits the delay counter (R34, R177). -/
theorem millisCount_toNat (c : BitVec 12) : (millisCount c).toNat = 1000 * c.toNat := by
  have hthousand : (1000 : Micros).toNat = 1000 := rfl
  rw [millisCount, BitVec.toNat_mul, BitVec.toNat_setWidth, hthousand]
  omega

/-- A list of primitives, each with an operand its own rule allows. -/
def OperandsInRange (l : List Prim) : Prop := ∀ p ∈ l, p.inRange = true

@[simp] theorem operandsInRange_nil : OperandsInRange [] := by simp [OperandsInRange]

@[simp] theorem operandsInRange_cons {p : Prim} {l : List Prim} :
    OperandsInRange (p :: l) ↔ p.inRange = true ∧ OperandsInRange l :=
  List.forall_mem_cons

@[simp] theorem operandsInRange_append {l m : List Prim} :
    OperandsInRange (l ++ m) ↔ OperandsInRange l ∧ OperandsInRange m :=
  List.forall_mem_append

theorem operandsInRange_delay {t : Micros} (ht : t.toNat ≤ 4095000) : OperandsInRange (delayMicroseconds t) := by
  simpa [delayMicroseconds, Prim.inRange] using ht

theorem operandsInRange_settle (d : Byte) (v : Bool) :
    OperandsInRange [.ldt (settleMicros d), .waitt, .waitl .ack v] := by
  have hd : (settleMicros d).toNat ≤ 4095000 := by rw [settleMicros_toNat]; omega
  simpa [Prim.inRange] using hd

theorem operandsInRange_settleCycle (t : Byte) : OperandsInRange (settleCycle t) :=
  operandsInRange_append.2 ⟨operandsInRange_settle t false, by simp [toggleReady, Prim.inRange]⟩

theorem operandsInRange_writeByte (src : Src) : OperandsInRange (writeByte src) := by
  simp [writeByte, Prim.inRange]

/-- `STB i` has an entry of `RXBUF` to write wherever the byte counter of a frame can stand (R63, R143). -/
theorem inRange_stb_ofNat {i : Nat} (hi : i < rxbufSize) : (Prim.stb (BitVec.ofNat 8 i)).inRange = true := by
  have hlt : i % 256 < rxbufSize := (Nat.mod_le i 256).trans_lt hi
  simpa [Prim.inRange] using hlt

theorem operandsInRange_readLoop {c i : Nat} (h : c + i ≤ rxbufSize) : OperandsInRange (readLoop c i) := by
  induction c generalizing i with
  | zero => exact operandsInRange_nil
  | succ c ih =>
    have hstb := inRange_stb_ofNat (show i < rxbufSize by omega)
    have hrest : OperandsInRange (readLoop c (i + 1)) := ih (by omega)
    simpa [readLoop, readLoopByte, readByte, toggleReady, Prim.inRange, hrest] using hstb

theorem operandsInRange_readFrame (n : Byte) : OperandsInRange (readFrame n.toNat) := by
  have hn : n.toNat - 1 < rxbufSize := by simp only [rxbufSize]; omega
  have hloop : OperandsInRange (readLoop (n.toNat - 1) 0) := operandsInRange_readLoop hn.le
  simpa [readFrame, readLastByte, readReply, readByte, waitFallingEdge, waitRisingEdge, Prim.inRange, hloop,
    operandsInRange_writeByte] using inRange_stb_ofNat hn

theorem operandsInRange_writeLoop (t : Byte) (k : BitVec 4) (c i : Nat) : OperandsInRange (writeLoop t k c i) := by
  induction c generalizing i with
  | zero => exact operandsInRange_nil
  | succ c ih =>
    simp [writeLoop, writeLoopByte, operandsInRange_settleCycle, operandsInRange_writeByte, Prim.inRange, ih]

theorem operandsInRange_writeFrame (t : Byte) (k : BitVec 4) (n : Byte) : OperandsInRange (writeFrame t k n) := by
  simp [writeFrame, waitFallingEdge, toggleReady, Prim.inRange, operandsInRange_writeByte, operandsInRange_writeLoop,
    operandsInRange_settleCycle]

/-- Every expansion gives its primitives operands in range (R161). -/
theorem operandsInRange_expand (s : State) (i : Instr) : OperandsInRange (expand s i) := by
  cases i with
  | wsl d => exact operandsInRange_settle d false
  | wsh d => exact operandsInRange_settle d true
  | rdf n => exact operandsInRange_readFrame n
  | wrf k => exact operandsInRange_writeFrame _ _ _
  | rawb v => exact operandsInRange_writeByte _
  | dlyu c => exact operandsInRange_delay (by rw [microsCount_toNat]; omega)
  | dlym c => exact operandsInRange_delay (by rw [millisCount_toNat]; omega)
  | _ => simp [expand, waitLevel, waitFallingEdge, waitRisingEdge, toggleReady, Prim.inRange]

/-! ## The invariant (R63, R74, R191, R192) -/

@[simp] theorem completeIff_eq_advance {cond : Bool} {s u : State} :
    completeIff cond s = .advance u ↔ cond = true ∧ s = u := by
  cases cond <;> simp [completeIff]

/-- A primitive with an operand in range that completes keeps the invariant. -/
theorem perform_keeps_inv {p : Prim} {s u : State} (hs : s.Inv) (hr : p.inRange = true)
    (h : perform p s = .advance u) : u.Inv := by
  cases p with
  | ldt t =>
    cases h
    exact { hs with dly := by simpa [Prim.inRange] using hr }
  | getb =>
    cases h
    exact { hs with byte := Reg.known_wf _ }
  | putb src =>
    cases h
    exact { hs with sr := Reg.known_wf _ }
  | toff =>
    cases h
    exact { hs with sr := Reg.unspecified_wf, dout := Reg.unspecified_wf }
  | stb i =>
    have hi : i.toNat < rxbufSize := by simpa [Prim.inRange] using hr
    simp only [perform, doStb, if_pos hi] at h
    cases h
    exact { hs with rxbuf := State.rxWrite_wf hs.rxbuf _ hi }
  | next =>
    simp only [perform, doNext] at h
    split at h <;> cases h
    exact { hs with }
  | waitl l v => exact (completeIff_eq_advance.1 h).2 ▸ hs
  | waitt => exact (completeIff_eq_advance.1 h).2 ▸ hs
  | waittc => exact (completeIff_eq_advance.1 h).2 ▸ hs
  | halt => cases h
  | _ =>
    cases h
    exact { hs with }

theorem State.raise_inv {s : State} (hs : s.Inv) (c : FaultCode) : (s.raise c).Inv :=
  { hs with fpc := Reg.known_wf _, todo := operandsInRange_nil, fault := c.code_le }

theorem State.load_expand_inv {s : State} (hs : s.Inv) (i : Instr) : (s.load (expand s i)).Inv :=
  { hs with todo := operandsInRange_append.2 ⟨operandsInRange_expand s i, by simp [Prim.inRange]⟩ }

theorem seqStep_keeps_inv {s t : State} (hs : s.Inv) (h : seqStep s = .next t) : t.Inv := by
  obtain rfl | ⟨p, rest, u, htodo, hp, rfl⟩ | ⟨_, c, rfl⟩ | ⟨_, i, rfl⟩ := seqStep_outcomes h
  · exact hs
  · obtain ⟨hhead, hrest⟩ := operandsInRange_cons.1 (htodo ▸ hs.todo)
    exact { perform_keeps_inv hs hhead hp with todo := hrest }
  · exact State.raise_inv hs c
  · exact State.load_expand_inv hs i

theorem tick_keeps_inv {s : State} (hs : s.Inv) : (tick s).Inv := by
  have hdly : (tick s).dly.toNat ≤ s.dly.toNat := by
    by_cases hrst : s.rst = true
    · simp [tick, hrst]
    · exact (tick_toNat (by simpa using hrst)).trans_le (Nat.sub_le _ _)
  rw [tick_keeps]
  exact { hs with dly := hdly.trans hs.dly }

theorem clkFall_keeps_inv {s : State} (hs : s.Inv) : (clkFall s).Inv := by
  unfold clkFall
  dsimp only
  split
  · split
    · exact { hs with dout := Reg.known_wf _ }
    · exact { hs with }
  · exact hs

theorem clkRise_keeps_inv {s : State} (hs : s.Inv) (drv : Drive) : (clkRise drv s).Inv := by
  unfold clkRise
  dsimp only
  split
  · exact hs
  · split
    · exact { hs with sr := Reg.shiftIn_wf hs.sr _ }
    · exact { hs with }

theorem State.enterReset_inv {s : State} (hs : s.Inv) : s.enterReset.Inv :=
  { State.reset_inv with cfg := hs.cfg }

/-- Every event of every agent keeps the invariant. -/
theorem act_keeps_inv {e : Event} {s t : State} (hs : s.Inv) (h : act e s = .next t) : t.Inv := by
  cases e with
  | seq => exact seqStep_keeps_inv hs h
  | tick => cases h; exact tick_keeps_inv hs
  | clkFall => cases h; exact clkFall_keeps_inv hs
  | clkRise drv => cases h; exact clkRise_keeps_inv hs drv
  | ack level => cases h; exact { hs with }
  | pwr level => cases h; exact { hs with }
  | rst level =>
    cases h
    cases level
    · exact { hs with }
    · exact State.enterReset_inv hs

theorem State.Inv.of_own {s : State} (hs : s.Inv) (q : List Event) (d : Nat) :
    State.Inv { s with queue := q, draws := d } :=
  { hs with }

/-- Settles O49: every event keeps the invariant, because every expansion has operands in range and every write to a
register or to `RXBUF` is well-formed. -/
theorem stepKeepsInvariant : Obligations.StepKeepsInvariant :=
  fun _ _ => step_keeps_of_act (fun _ q d h => h.of_own q d) fun _ _ _ => act_keeps_inv

/-! ## What an event cannot do: stop, or write the configuration (R74, R76, R193, R212) -/

theorem completeIff_ne_outside {cond : Bool} {s : State} : completeIff cond s ≠ .outside := by
  cases cond <;> simp [completeIff]

/-- A primitive with an operand in range stays in its spaces (R74). -/
theorem perform_ne_outside {p : Prim} (hp : p.inRange = true) (s : State) : perform p s ≠ .outside := by
  intro h
  cases p with
  | stb i =>
    have hi : i.toNat < rxbufSize := by simpa [Prim.inRange] using hp
    simp [perform, doStb, hi] at h
  | next =>
    simp only [perform, doNext] at h
    split at h <;> cases h
  | waitl l v => exact completeIff_ne_outside h
  | waitt => exact completeIff_ne_outside h
  | waittc => exact completeIff_ne_outside h
  | _ => cases h

theorem fetch_answers (s : State) : ∃ t, fetch s = .next t := by
  unfold fetch
  split
  · exact ⟨_, rfl⟩
  · exact exec_answers _ s

theorem execute_answers {p : Prim} (hp : p.inRange = true) (rest : List Prim) (s : State) :
    ∃ t, execute p rest s = .next t := by
  unfold execute
  split
  · exact ⟨_, rfl⟩
  · exact ⟨_, rfl⟩
  · exact ⟨_, rfl⟩
  · exact absurd ‹_› (perform_ne_outside hp s)

theorem seqStep_answers {s : State} (hs : s.Inv) : ∃ t, seqStep s = .next t := by
  unfold seqStep
  split
  · split
    · exact fetch_answers s
    · rename_i p rest htodo
      have hhead : p.inRange = true := (operandsInRange_cons.1 (htodo ▸ hs.todo)).1
      exact execute_answers hhead rest s
  · exact ⟨s, rfl⟩

theorem act_answers (e : Event) {s : State} (hs : s.Inv) : ∃ t, act e s = .next t := by
  cases e with
  | seq => exact seqStep_answers hs
  | _ => exact ⟨_, rfl⟩

theorem nextEvent_inv {s : State} (hs : s.Inv) : (nextEvent s).2.Inv := by
  rw [nextEvent_keeps]
  exact hs.of_own _ _

/-- Settles O50: the invariant keeps every operand of `TODO` in range, so no primitive leaves its spaces. -/
theorem stepNeverStops : Obligations.StepNeverStops :=
  fun s hs => act_answers (nextEvent s).1 (nextEvent_inv hs)

/-- Settles O51: no event writes the configuration, and taking an event writes the model's own fields only. -/
theorem configurationNeverChanges : Obligations.ConfigurationNeverChanges := by
  intro s t h
  rw [act_cfg h, nextEvent_keeps]

/-! ## Placing and fetching a word (R60, R160, log 7) -/

theorem State.withFetchWord_word (s : State) (w : Word) :
    s.withFetchWord 16 w.toNat = (s.placeWord w).readyToFetch := by
  have hw : BitVec.ofNat 16 (w.toNat % 2 ^ 16) = w := by
    rw [Nat.mod_eq_of_lt w.isLt, BitVec.ofNat_toNat, BitVec.setWidth_eq]
  rw [State.withFetchWord, hw]

theorem State.scriptWord_placeWord (s : State) (w : Word) : (s.placeWord w).scriptWord = w :=
  Memory.getD_put_self erasedWord s.cfg.script s.pc.toNat w

/-- The step after `readyToFetch` is a fetch (R160). -/
theorem step_readyToFetch (s : State) :
    step s.readyToFetch = fetch { s with todo := [], fault := 0, rst := false } := by
  rw [step, nextEvent_of_queue s.readyToFetch_queue]
  exact seqStep_fetch rfl rfl

/-- Settles O7: the word is read back from the script, and the queue puts SEQ's fetch first. -/
theorem placedWordIsRunNext : Obligations.PlacedWordIsRunNext := by
  intro s w i hdecode
  have hword := s.scriptWord_placeWord w
  rw [State.withFetchWord_word]
  refine ⟨hword, ?_⟩
  calc step (s.placeWord w).readyToFetch
      = fetch { s.placeWord w with todo := [], fault := 0, rst := false } := step_readyToFetch _
    _ = exec i { s.placeWord w with todo := [], fault := 0, rst := false } :=
        fetch_legal ((congrArg decode hword).trans hdecode)

theorem State.load_ne_raise (s : State) (l : List Prim) (c : FaultCode) : s.load l ≠ s.raise c := by
  intro h
  simpa using congrArg State.todo h

theorem payloadRunsPast_iff (e : PayloadEntry) : payloadRunsPast e = true ↔ 256 < e.base.toNat + e.len.toNat := by
  simp [payloadRunsPast]

/-- Settles O14: past the end the fetch raises `PayloadIndex`; otherwise it loads `TODO`, which a fault leaves empty. -/
theorem payloadPastEndFaults : Obligations.PayloadPastEndFaults := by
  intro s k
  change exec (.wrf k) s = .next (s.raise .payloadIndex) ↔ _
  rw [← payloadRunsPast_iff, exec, execWrf]
  split
  · rename_i hpast
    simp [hpast]
  · rename_i hfits
    simp [hfits, State.load_ne_raise]

/-! ## The bytes of a written frame (R67, R146, R148) -/

/-- What a primitive loads into the data register, the flag-clear sentinel left out (R127, R131). -/
def loadedSource : Prim → Option Src
  | .putb .sent => none
  | .putb src => some src
  | _ => none

theorem loadedSources_writeLoop (t : Byte) (k : BitVec 4) (c i : Nat) :
    (writeLoop t k c i).filterMap loadedSource = (List.range' i c).map fun j => .pay k (BitVec.ofNat 8 j) := by
  induction c generalizing i with
  | zero => rfl
  | succ c ih =>
    have hbyte : (writeLoopByte t k i).filterMap loadedSource = [.pay k (BitVec.ofNat 8 i)] := rfl
    rw [writeLoop, List.filterMap_append, hbyte, ih, List.range'_succ, List.map_cons, List.singleton_append]

theorem loadedSources_writeFrame (t : Byte) (k : BitVec 4) (n : Byte) :
    (writeFrame t k n).filterMap loadedSource =
      .imm n :: ((List.range n.toNat).map fun i => .pay k (BitVec.ofNat 8 i)) ++ [.csumr] := by
  have hlen : (waitFallingEdge ++ toggleReady ++ writeByte (.imm n) ++ [Prim.clrsum]).filterMap loadedSource = [.imm n] :=
    rfl
  have hsum : (settleCycle t ++ writeByte .csumr).filterMap loadedSource = [.csumr] := rfl
  rw [writeFrame, List.append_assoc _ (settleCycle t), List.filterMap_append, List.filterMap_append, hlen, hsum,
    loadedSources_writeLoop, ← List.range_eq_range']
  rfl

/-- The primitives that stand once in the handshake and transmission of each byte of a written frame (R148): turning the
line round, the wait for `ACK` low, and each half of the toggle. -/
def OncePerWrittenByte (p : Prim) : Prop :=
  p = .setdir true ∨ p = .waitl .ack false ∨ p = .setrdy false ∨ p = .setrdy true

section OncePerByte

variable {p : Prim} (hp : OncePerWrittenByte p)
include hp

theorem count_lengthByte (n : Byte) :
    (waitFallingEdge ++ toggleReady ++ writeByte (.imm n) ++ [Prim.clrsum]).count p = 1 := by
  obtain rfl | rfl | rfl | rfl := hp <;> rfl

theorem count_settledByte (t : Byte) {src : Src} : (settleCycle t ++ writeByte src).count p = 1 := by
  obtain rfl | rfl | rfl | rfl := hp <;> rfl

theorem count_writeLoop (t : Byte) (k : BitVec 4) (c i : Nat) : (writeLoop t k c i).count p = c := by
  have hacc : ∀ src, [Prim.acc src].count p = 0 := fun src => by obtain rfl | rfl | rfl | rfl := hp <;> rfl
  induction c generalizing i with
  | zero => rfl
  | succ c ih =>
    rw [writeLoop, writeLoopByte, List.count_append, List.count_append, count_settledByte hp, hacc, ih, Nat.add_comm]

theorem count_writeFrame (t : Byte) (k : BitVec 4) (n : Byte) :
    ((writeFrame t k n).filter (· == p)).length = n.toNat + 2 := by
  rw [← List.count_eq_length_filter, writeFrame, List.append_assoc _ (settleCycle t), List.count_append,
    List.count_append, count_lengthByte hp, count_writeLoop hp, count_settledByte hp]
  omega

end OncePerByte

/-- Settles O11: the length byte, each payload byte and the checksum are loaded once each, in this order, each with one
turn of the line, one wait for `ACK` low and one toggle. -/
theorem writtenFrameByteOrder : Obligations.WrittenFrameByteOrder :=
  fun t k n => ⟨loadedSources_writeFrame t k n, count_writeFrame (.inl rfl) t k n,
    count_writeFrame (.inr (.inl rfl)) t k n, count_writeFrame (.inr (.inr (.inl rfl))) t k n,
    count_writeFrame (.inr (.inr (.inr rfl))) t k n⟩

/-! ## Received data never steers (R76, R127, R164) -/

/-- The two states agree in all that steers SEQ: they may differ in the data the wire has carried and in the flag. -/
def sameSteering (s t : State) : Prop := sameButData s { t with tc := s.tc }

theorem sameButData.sameSteering {s t : State} (h : sameButData s t) : sameSteering s t := by
  rw [Machine.sameSteering, h]
  rfl

theorem sameSteering.set_todo {s t : State} (h : sameSteering s t) (l : List Prim) :
    sameSteering { s with todo := l } { t with todo := l } := by
  have hl := congrArg (fun v : State => { v with todo := l }) h
  exact hl

theorem sameButData.tc {s t : State} (h : sameButData s t) : t.tc = s.tc := by rw [h]

theorem sameButData.todo {s t : State} (h : sameButData s t) : t.todo = s.todo := by rw [h]

theorem sameButData.level {s t : State} (h : sameButData s t) (l : Line) : t.level l = s.level l := by
  rw [h]
  cases l <;> rfl

theorem sameButData.dly {s t : State} (h : sameButData s t) : t.dly = s.dly := by rw [h]

theorem sameButData.seqEnabled {s t : State} (h : sameButData s t) : t.seqEnabled = s.seqEnabled := by
  rw [h]
  rfl

theorem sameButData.clk {s t : State} (h : sameButData s t) : t.clk = s.clk := by rw [h]

theorem sameButData.engEnabled {s t : State} (h : sameButData s t) : t.engEnabled = s.engEnabled := by
  rw [h]
  rfl

theorem sameButData.scriptWord {s t : State} (h : sameButData s t) : t.scriptWord = s.scriptWord := by
  rw [h]
  rfl

theorem sameButData.raise {s t : State} (h : sameButData s t) (c : FaultCode) : sameButData (s.raise c) (t.raise c) := by
  rw [h]
  rfl

/-- A blocking primitive completes on the same condition in both states. -/
theorem completeIff_sameButData {cond : Bool} {s t u : State} (h : sameButData s t)
    (hs : completeIff cond s = .advance u) : ∃ u', completeIff cond t = .advance u' ∧ sameButData u u' := by
  obtain ⟨hcond, rfl⟩ := completeIff_eq_advance.1 hs
  exact ⟨t, completeIff_eq_advance.2 ⟨hcond, rfl⟩, h⟩

/-- The primitives that write a byte the wire has carried, or the sum of such bytes, into the data register. -/
def Prim.putsCarried (p : Prim) : Bool := p == .putb .csumr || p == .putb .byte

/-- `PUTB` writes the same flag in both states, unless its byte is one the wire has carried (R127). -/
theorem putb_sameSteering {src : Src} {s t u : State} (h : sameButData s t) (hp : perform (.putb src) s = .advance u) :
    ∃ u', perform (.putb src) t = .advance u' ∧ sameSteering u u' ∧
      (u'.tc = u.tc ∨ (Prim.putb src).putsCarried = true) := by
  cases hp
  refine ⟨_, rfl, ?_, ?_⟩
  · rw [h]
    rfl
  · cases src with
    | csumr => exact .inr rfl
    | byte => exact .inr rfl
    | _ =>
      rw [h]
      exact .inl rfl

/-- Every other primitive that completes in one state completes in the other, and writes what steers SEQ alike. -/
theorem perform_sameButData {p : Prim} {s t u : State} (h : sameButData s t) (hn : ∀ src, p ≠ .putb src)
    (hp : perform p s = .advance u) : ∃ u', perform p t = .advance u' ∧ sameButData u u' := by
  cases p with
  | putb src => exact absurd rfl (hn src)
  | waitl l v =>
    rw [perform, doWaitl, h.level]
    exact completeIff_sameButData h hp
  | waitt =>
    rw [perform, doWaitt, h.dly]
    exact completeIff_sameButData h hp
  | waittc =>
    rw [perform, doWaittc, h.tc]
    exact completeIff_sameButData h hp
  | stb i =>
    simp only [perform, doStb] at hp ⊢
    split at hp <;> cases hp
    rw [if_pos ‹_›, h]
    exact ⟨_, rfl, rfl⟩
  | next =>
    rw [h]
    simp only [perform, doNext] at hp ⊢
    split at hp <;> cases hp
    exact ⟨_, if_neg ‹_›, rfl⟩
  | halt => cases hp
  | _ =>
    cases hp
    rw [h]
    exact ⟨_, rfl, rfl⟩

theorem perform_sameSteering {p : Prim} {s t u : State} (h : sameButData s t) (hp : perform p s = .advance u) :
    ∃ u', perform p t = .advance u' ∧ sameSteering u u' ∧ (u'.tc = u.tc ∨ p.putsCarried = true) := by
  by_cases hputb : ∃ src, p = .putb src
  · obtain ⟨src, rfl⟩ := hputb
    exact putb_sameSteering h hp
  · obtain ⟨u', hp', hu⟩ := perform_sameButData h (fun src hsrc => hputb ⟨src, hsrc⟩) hp
    exact ⟨u', hp', hu.sameSteering, .inl hu.tc⟩

theorem perform_hold_sameButData {p : Prim} {s t : State} (h : sameButData s t) (hp : perform p s = .hold) :
    perform p t = .hold := by
  obtain rfl | rfl | rfl | ⟨l, v, rfl⟩ := perform_hold_kind hp
  · rfl
  · rwa [perform_waitt_hold, h.dly, ← perform_waitt_hold]
  · rwa [perform_waittc_hold, h.tc, ← perform_waittc_hold]
  · rwa [perform_waitl_hold, h.level, ← perform_waitl_hold]

theorem perform_trap_sameButData {p : Prim} {s t : State} {c : FaultCode} (h : sameButData s t)
    (hp : perform p s = .trap c) : perform p t = .trap c := by
  obtain ⟨rfl, -⟩ := perform_trap hp
  rw [h]
  simp only [perform, doNext] at hp ⊢
  split at hp <;> cases hp
  exact if_pos ‹_›

theorem execute_sameSteering {p : Prim} {rest : List Prim} {s t s' : State} (h : sameButData s t)
    (hx : execute p rest s = .next s') :
    ∃ t', execute p rest t = .next t' ∧ sameSteering s' t' ∧ (t'.tc = s'.tc ∨ p.putsCarried = true) := by
  unfold execute at hx
  split at hx
  · rename_i u hp
    cases hx
    obtain ⟨u', hp', hu, htc⟩ := perform_sameSteering h hp
    exact ⟨{ u' with todo := rest }, by rw [execute, hp'], hu.set_todo rest, htc⟩
  · rename_i hp
    cases hx
    exact ⟨t, by rw [execute, perform_hold_sameButData h hp], h.sameSteering, .inl h.tc⟩
  · rename_i c hp
    cases hx
    exact ⟨t.raise c, by rw [execute, perform_trap_sameButData h hp], (h.raise c).sameSteering, .inl h.tc⟩
  · cases hx

/-- The fetch reads the configuration and `PC` only (R160, R76). -/
theorem exec_sameButData {i : Instr} {s t s' : State} (h : sameButData s t) (hx : exec i s = .next s') :
    ∃ t', exec i t = .next t' ∧ sameButData s' t' := by
  rw [h]
  cases i with
  | rdf n =>
    simp only [exec, execRdf] at hx ⊢
    split at hx <;> cases hx
    · exact ⟨_, if_pos ‹_›, rfl⟩
    · exact ⟨_, if_neg ‹_›, rfl⟩
  | wrf k =>
    simp only [exec, execWrf] at hx ⊢
    split at hx <;> cases hx
    · exact ⟨_, if_pos ‹_›, rfl⟩
    · exact ⟨_, if_neg ‹_›, rfl⟩
  | _ =>
    cases hx
    exact ⟨_, rfl, rfl⟩

theorem fetch_sameButData {s t s' : State} (h : sameButData s t) (hx : fetch s = .next s') :
    ∃ t', fetch t = .next t' ∧ sameButData s' t' := by
  cases hd : decode s.scriptWord with
  | error why =>
    rw [fetch_illegal hd] at hx
    cases hx
    exact ⟨_, fetch_illegal (h.scriptWord ▸ hd), h.raise _⟩
  | ok i =>
    rw [fetch_legal hd] at hx
    rw [fetch_legal (h.scriptWord ▸ hd)]
    exact exec_sameButData h hx

theorem seqStep_sameSteering {s t s' : State} (h : sameButData s t) (hx : seqStep s = .next s') :
    ∃ t', seqStep t = .next t' ∧ sameSteering s' t' ∧ (t'.tc = s'.tc ∨ trying .seq s Prim.putsCarried) := by
  cases hen : s.seqEnabled with
  | false =>
    rw [seqStep_disabled hen] at hx
    cases hx
    exact ⟨t, seqStep_disabled (h.seqEnabled.trans hen), h.sameSteering, .inl h.tc⟩
  | true =>
    have hen' := h.seqEnabled.trans hen
    cases hs : s.todo with
    | nil =>
      rw [seqStep_fetch hen hs] at hx
      obtain ⟨t', hx', ht⟩ := fetch_sameButData h hx
      exact ⟨t', (seqStep_fetch hen' (h.todo.trans hs)).trans hx', ht.sameSteering, .inl ht.tc⟩
    | cons p rest =>
      rw [seqStep_execute hen hs] at hx
      obtain ⟨t', hx', ht, htc⟩ := execute_sameSteering h hx
      exact ⟨t', (seqStep_execute hen' (h.todo.trans hs)).trans hx', ht, htc.imp_right (trying_of_head hs)⟩

theorem tick_sameButData {s t : State} (h : sameButData s t) : sameButData (tick s) (tick t) := by
  rw [h]
  unfold tick
  dsimp only
  split
  · rfl
  · split <;> rfl

theorem clkFall_sameButData {s t : State} (h : sameButData s t) : sameButData (clkFall s) (clkFall t) := by
  cases hs : s.clk with
  | false => rwa [clkFall_of_low hs, clkFall_of_low (h.clk.trans hs)]
  | true =>
    cases he : s.engEnabled with
    | false =>
      rw [clkFall_of_disabled hs he, clkFall_of_disabled (h.clk.trans hs) (h.engEnabled.trans he), h]
      rfl
    | true =>
      rw [clkFall_of_enabled hs he, clkFall_of_enabled (h.clk.trans hs) (h.engEnabled.trans he), h]
      rfl

theorem clkRise_sameButData {s t : State} (h : sameButData s t) (drv : Drive) :
    sameButData (clkRise drv s) (clkRise drv t) := by
  cases hs : s.clk with
  | true => rwa [clkRise_of_high drv hs, clkRise_of_high drv (h.clk.trans hs)]
  | false =>
    cases he : s.engEnabled with
    | false =>
      rw [clkRise_of_disabled drv hs he, clkRise_of_disabled drv (h.clk.trans hs) (h.engEnabled.trans he), h]
      rfl
    | true =>
      rw [clkRise_of_enabled drv hs he, clkRise_of_enabled drv (h.clk.trans hs) (h.engEnabled.trans he), h]
      rfl

theorem setRst_sameButData {s t : State} (h : sameButData s t) (level : Bool) :
    sameButData (setRst level s) (setRst level t) := by
  rw [h]
  cases level <;> rfl

/-- An event of another agent than SEQ keeps the agreement, the flag included (R122, R164). -/
theorem act_sameButData {e : Event} {s t s' : State} (he : e ≠ .seq) (h : sameButData s t) (hx : act e s = .next s') :
    ∃ t', act e t = .next t' ∧ sameButData s' t' := by
  cases e with
  | seq => exact absurd rfl he
  | tick => cases hx; exact ⟨_, rfl, tick_sameButData h⟩
  | clkFall => cases hx; exact ⟨_, rfl, clkFall_sameButData h⟩
  | clkRise drv => cases hx; exact ⟨_, rfl, clkRise_sameButData h drv⟩
  | rst level => cases hx; exact ⟨_, rfl, setRst_sameButData h level⟩
  | _ =>
    cases hx
    rw [h]
    exact ⟨_, rfl, rfl⟩

theorem act_sameSteering {e : Event} {s t s' : State} (h : sameButData s t) (hx : act e s = .next s') :
    ∃ t', act e t = .next t' ∧ sameSteering s' t' ∧ (t'.tc = s'.tc ∨ trying e s Prim.putsCarried) := by
  by_cases he : e = .seq
  · subst he
    exact seqStep_sameSteering h hx
  · obtain ⟨t', hx', ht⟩ := act_sameButData he h hx
    exact ⟨t', hx', ht.sameSteering, .inl ht.tc⟩

/-- Settles O58: what the wire has carried flows only into the registers that hold such data and, by a `PUTB` of the
checksum or of the byte latch, into the flag. -/
theorem receivedDataNeverSteers : Obligations.ReceivedDataNeverSteers := by
  intro e s t s' h hx
  obtain ⟨t', hx', ht, htc⟩ := act_sameSteering h hx
  exact ⟨t', hx', (congrArg State.pc ht :), (congrArg State.todo ht :), (congrArg State.fault ht :),
    (congrArg State.fpc ht :), (congrArg State.rdy ht :), (congrArg State.datOe ht :), (congrArg State.dly ht :),
    (congrArg State.en ht :), (congrArg State.bitcnt ht :), htc⟩

end Sys2Proof.Machine

/-! PROOFS. The statements of `spec/30_encoding.md`: the decoder and the encoder are inverse to each other, the rows of the
opcode map are disjoint and agree with the decoder (R82), and the illegal words are those of R88. -/

namespace Sys2Proof

/-! ## The decoder, one equation per tag (R82, R88) -/

section Decoder

variable {w : Word} {s : BitVec 4} {a : Byte}

theorem decode_waitTag (h : tagOf w = 1) : decode w = decodeWait (subOf w) (argOf w) := by simp [decode, h]

theorem decode_readyTag (h : tagOf w = 2) : decode w = decodeReady (subOf w) (argOf w) := by simp [decode, h]

theorem decode_rdfTag (h : tagOf w = 3) : decode w = decodeSubZero (subOf w) (.ok (.rdf (argOf w))) := by
  simp [decode, h]

theorem decode_wrfTag (h : tagOf w = 4) : decode w = decodeSubZero (subOf w) (decodeWriteFrame (argOf w)) := by
  simp [decode, h]

theorem decode_rawbTag (h : tagOf w = 5) : decode w = decodeSubZero (subOf w) (.ok (.rawb (argOf w))) := by
  simp [decode, h]

theorem decode_dlyuTag (h : tagOf w = 6) : decode w = .ok (.dlyu (opOf w)) := by simp [decode, h]

theorem decode_dlymTag (h : tagOf w = 7) : decode w = .ok (.dlym (opOf w)) := by simp [decode, h]

theorem decode_trstTag (h : tagOf w = 8) : decode w = decodeSubZero (subOf w) (decodeBare .trst (argOf w)) := by
  simp [decode, h]

theorem decode_stbyTag (h : tagOf w = 9) : decode w = decodeSubZero (subOf w) (decodeBare .stby (argOf w)) := by
  simp [decode, h]

theorem decode_reservedTag (h : tagOf w = 0 ∨ 10 ≤ (tagOf w).toNat) : decode w = .error .reservedTag := by
  have h0 : (tagOf w).toNat = 0 ∨ 10 ≤ (tagOf w).toNat := h.imp_left (congrArg BitVec.toNat)
  unfold decode
  split <;> try omega
  rfl

/-- The tags of the families, and the reserved ones (R82, R88). -/
theorem tag_cases : ∀ t : BitVec 4, t = 1 ∨ t = 2 ∨ t = 3 ∨ t = 4 ∨ t = 5 ∨ t = 6 ∨ t = 7 ∨ t = 8 ∨ t = 9 ∨
    (t = 0 ∨ 10 ≤ t.toNat) := by decide

/-- The sub-kinds of the Wait family, and the reserved ones (R83, R88). -/
theorem wait_sub_cases : ∀ s : BitVec 4, s = 0 ∨ s = 1 ∨ s = 2 ∨ s = 3 ∨ s = 4 ∨ s = 5 ∨ 6 ≤ s.toNat := by decide

/-- The sub-kinds of the ready-line family, and the reserved ones (R84, R88). -/
theorem ready_sub_cases : ∀ s : BitVec 4, s = 0 ∨ s = 1 ∨ s = 2 ∨ 3 ≤ s.toNat := by decide

theorem decodeWait_reserved (h : 6 ≤ s.toNat) : decodeWait s a = .error .reservedSub := by
  unfold decodeWait
  split <;> try omega
  rfl

theorem decodeReady_reserved (h : 3 ≤ s.toNat) : decodeReady s a = .error .reservedSub := by
  unfold decodeReady
  split <;> try omega
  rfl

end Decoder

/-! ## Decoding the word of a step (R80 to R87) -/

theorem argBit_levelArg : ∀ v : Bool, (levelArg v).getLsbD 0 = v := by decide

theorem decodeLevel_levelArg (mk : Bool → Instr) (v : Bool) : decodeLevel mk (levelArg v) = .ok (mk v) :=
  decodeLevel_ok.2 (by simp only [argBit_levelArg, and_self])

theorem decodeWriteFrame_setWidth (k : BitVec 4) : decodeWriteFrame (k.setWidth 8) = .ok (.wrf k) := by
  have low : ∀ k : BitVec 4, (k.setWidth 8).extractLsb' 0 4 = k := by decide
  exact decodeWriteFrame_ok.2 (by simp only [low, and_self])

/-- A Wait word is read by its sub-kind (R83). -/
theorem decode_waitWord (s : BitVec 4) (a : Byte) : decode (wordOf 1 s a) = decodeWait s a := by
  simp [decode_waitTag]

/-- A ready-line word is read by its sub-kind (R84). -/
theorem decode_readyWord (s : BitVec 4) (a : Byte) : decode (wordOf 2 s a) = decodeReady s a := by
  simp [decode_readyTag]

/-- Settles O1: the fields of the encoded word are those it was assembled from, and each family gives back its operand. -/
theorem decodeInvertsEncode : Obligations.DecodeInvertsEncode := by
  intro i
  cases i with
  | wlvAck v => exact (decode_waitWord 0 _).trans (decodeLevel_levelArg .wlvAck v)
  | wlvPwr v => exact (decode_waitWord 1 _).trans (decodeLevel_levelArg .wlvPwr v)
  | wfe => exact decode_waitWord 2 0
  | wre => exact decode_waitWord 3 0
  | wsl d => exact decode_waitWord 4 d
  | wsh d => exact decode_waitWord 5 d
  | rdyl => exact decode_readyWord 0 0
  | rdyh => exact decode_readyWord 1 0
  | rdyt => exact decode_readyWord 2 0
  | rdf n => simp [encode, decode_rdfTag, decodeSubZero_ok]
  | wrf k => simp [encode, decode_wrfTag, decodeSubZero_ok, decodeWriteFrame_setWidth]
  | rawb v => simp [encode, decode_rawbTag, decodeSubZero_ok]
  | dlyu c => simp [encode, decode_dlyuTag]
  | dlym c => simp [encode, decode_dlymTag]
  | trst => simp [encode, decode_trstTag, decodeSubZero_ok, decodeBare_ok]
  | stby => simp [encode, decode_stbyTag, decodeSubZero_ok, decodeBare_ok]

/-- Settles O5: each listed word is the word of its step, and `0x1002` is a Wait word with an operand bit set that must be
0. -/
theorem listedWordsDecode : Obligations.ListedWordsDecode :=
  ⟨decodeInvertsEncode (.wlvAck true), decodeInvertsEncode (.wlvPwr true), decodeInvertsEncode (.wsl 255),
    decodeInvertsEncode .rdyt, decodeInvertsEncode (.rdf 1), decodeInvertsEncode (.wrf 15),
    decodeInvertsEncode (.rawb 0xFF), decodeInvertsEncode (.dlyu 100), decodeInvertsEncode (.dlym 4095),
    decodeInvertsEncode .trst, decodeInvertsEncode .stby, rfl⟩

/-! ## The word of a decoded step (R82) -/

section Inverse

variable {w : Word} {s : BitVec 4} {a : Byte} {i : Instr}

theorem encode_of_decodeWait (h : decodeWait s a = .ok i) : encode i = wordOf 1 s a := by
  obtain rfl | rfl | rfl | rfl | rfl | rfl | hs := wait_sub_cases s
  · obtain ⟨ha, rfl⟩ := decodeLevel_ok.1 h
    exact congrArg (wordOf 1 0) ha.symm
  · obtain ⟨ha, rfl⟩ := decodeLevel_ok.1 h
    exact congrArg (wordOf 1 1) ha.symm
  · obtain ⟨rfl, rfl⟩ := decodeBare_ok.1 h
    rfl
  · obtain ⟨rfl, rfl⟩ := decodeBare_ok.1 h
    rfl
  · cases h
    rfl
  · cases h
    rfl
  · cases (decodeWait_reserved hs).symm.trans h

theorem encode_of_decodeReady (h : decodeReady s a = .ok i) : encode i = wordOf 2 s a := by
  obtain rfl | rfl | rfl | hs := ready_sub_cases s
  · obtain ⟨rfl, rfl⟩ := decodeBare_ok.1 h
    rfl
  · obtain ⟨rfl, rfl⟩ := decodeBare_ok.1 h
    rfl
  · obtain ⟨rfl, rfl⟩ := decodeBare_ok.1 h
    rfl
  · cases (decodeReady_reserved hs).symm.trans h

/-- A step whose word has the fields of `w` is encoded as `w` (R80). -/
theorem encode_eq_of_fields {t : BitVec 4} (ht : tagOf w = t) (h : encode i = wordOf t (subOf w) (argOf w)) :
    encode i = w := by
  rw [h, ← ht, wordOf_fields]

/-- A step whose word has the tag and the 12-bit operand of `w` is encoded as `w` (R80). -/
theorem encode_eq_of_fieldsOp {t : BitVec 4} (ht : tagOf w = t) (h : encode i = wordOfOp t (opOf w)) :
    encode i = w := by
  rw [h, ← ht, wordOfOp_fields]

end Inverse

/-- Settles O2: each family's decoder accepts only the fields that the encoder writes. -/
theorem encodeInvertsDecode : Obligations.EncodeInvertsDecode := by
  intro w i h
  obtain ht | ht | ht | ht | ht | ht | ht | ht | ht | ht := tag_cases (tagOf w)
  · rw [decode_waitTag ht] at h
    exact encode_eq_of_fields ht (encode_of_decodeWait h)
  · rw [decode_readyTag ht] at h
    exact encode_eq_of_fields ht (encode_of_decodeReady h)
  · rw [decode_rdfTag ht, decodeSubZero_ok] at h
    obtain ⟨hs, ⟨⟩⟩ := h
    exact encode_eq_of_fields ht (by rw [hs]; rfl)
  · rw [decode_wrfTag ht, decodeSubZero_ok, decodeWriteFrame_ok] at h
    obtain ⟨hs, ha, rfl⟩ := h
    exact encode_eq_of_fields ht (by rw [hs]; exact congrArg (wordOf 4 0) ha.symm)
  · rw [decode_rawbTag ht, decodeSubZero_ok] at h
    obtain ⟨hs, ⟨⟩⟩ := h
    exact encode_eq_of_fields ht (by rw [hs]; rfl)
  · rw [decode_dlyuTag ht] at h
    cases h
    exact encode_eq_of_fieldsOp ht rfl
  · rw [decode_dlymTag ht] at h
    cases h
    exact encode_eq_of_fieldsOp ht rfl
  · rw [decode_trstTag ht, decodeSubZero_ok, decodeBare_ok] at h
    obtain ⟨hs, ha, rfl⟩ := h
    exact encode_eq_of_fields ht (by rw [hs, ha]; rfl)
  · rw [decode_stbyTag ht, decodeSubZero_ok, decodeBare_ok] at h
    obtain ⟨hs, ha, rfl⟩ := h
    exact encode_eq_of_fields ht (by rw [hs, ha]; rfl)
  · cases (decode_reservedTag ht).symm.trans h

/-! ## The rows of the opcode map (R82) -/

/-- A word is of a row iff each of its fields is, under the field's part of the mask (R81, R82). -/
theorem OpcodeRow.has_iff_fields {r : OpcodeRow} {w : Word} :
    r.has w = true ↔ tagOf w &&& tagOf r.mask = tagOf r.value ∧ subOf w &&& subOf r.mask = subOf r.value ∧
      argOf w &&& argOf r.mask = argOf r.value := by
  have field (lo n : Nat) : (w &&& r.mask).extractLsb' lo n = w.extractLsb' lo n &&& r.mask.extractLsb' lo n :=
    BitVec.extractLsb'_and
  unfold tagOf subOf argOf
  rw [← field, ← field, ← field, OpcodeRow.has, beq_iff_eq]
  refine ⟨fun h => by simp only [h, and_self], fun ⟨ht, hs, ha⟩ => ?_⟩
  calc w &&& r.mask
      = wordOf (tagOf (w &&& r.mask)) (subOf (w &&& r.mask)) (argOf (w &&& r.mask)) := (wordOf_fields _).symm
    _ = wordOf (tagOf r.value) (subOf r.value) (argOf r.value) := congr (congrArg₂ wordOf ht hs) ha
    _ = r.value := wordOf_fields _

section Rows

variable {w : Word} {t s : BitVec 4} {m : Byte}

/-- A row whose mask covers tag and sub-kind fixes both (R82). -/
theorem OpcodeRow.has_fields (h : OpcodeRow.has ⟨wordOf 15 15 m, wordOf t s 0⟩ w = true) :
    ∃ a, a &&& m = 0 ∧ wordOf t s a = w := by
  have full : ∀ x : BitVec 4, x &&& 15 = x := by decide
  obtain ⟨ht, hs, ha⟩ := OpcodeRow.has_iff_fields.1 h
  simp only [tag_wordOf, sub_wordOf, arg_wordOf, full] at ht hs ha
  exact ⟨argOf w, ha, by rw [← ht, ← hs, wordOf_fields]⟩

/-- A row whose mask covers the tag alone fixes the tag (R82). -/
theorem OpcodeRow.has_tag (h : OpcodeRow.has ⟨wordOf 15 0 0, wordOf t 0 0⟩ w = true) : ∃ c, wordOfOp t c = w := by
  have full : ∀ x : BitVec 4, x &&& 15 = x := by decide
  obtain ⟨ht, -, -⟩ := OpcodeRow.has_iff_fields.1 h
  simp only [tag_wordOf, full] at ht
  exact ⟨opOf w, by rw [← ht, wordOfOp_fields]⟩

/-- A row of mask `0xFFFF` holds one word. -/
theorem OpcodeRow.has_exact (h : OpcodeRow.has ⟨wordOf 15 15 0xFF, wordOf t s 0⟩ w = true) : wordOf t s 0 = w := by
  have none_left : ∀ a : Byte, a &&& 0xFF = 0 → a = 0 := by decide
  obtain ⟨a, ha, hw⟩ := OpcodeRow.has_fields h
  exact none_left a ha ▸ hw

/-- A row of mask `0xFFFE` holds the two words of a level operand. -/
theorem OpcodeRow.has_level (h : OpcodeRow.has ⟨wordOf 15 15 0xFE, wordOf t s 0⟩ w = true) :
    ∃ v, wordOf t s (levelArg v) = w := by
  have bit_left : ∀ a : Byte, a &&& 0xFE = 0 → a = levelArg (a.getLsbD 0) := by decide
  obtain ⟨a, ha, hw⟩ := OpcodeRow.has_fields h
  exact ⟨_, bit_left a ha ▸ hw⟩

/-- A row of mask `0xFFF0` holds the sixteen words of a payload operand. -/
theorem OpcodeRow.has_payload (h : OpcodeRow.has ⟨wordOf 15 15 0xF0, wordOf t s 0⟩ w = true) :
    ∃ k : BitVec 4, wordOf t s (k.setWidth 8) = w := by
  have nibble_left : ∀ a : Byte, a &&& 0xF0 = 0 → a = (a.extractLsb' 0 4).setWidth 8 := by decide
  obtain ⟨a, ha, hw⟩ := OpcodeRow.has_fields h
  exact ⟨_, nibble_left a ha ▸ hw⟩

/-- A row of mask `0xFF00` holds the words of an 8-bit operand. -/
theorem OpcodeRow.has_byte (h : OpcodeRow.has ⟨wordOf 15 15 0, wordOf t s 0⟩ w = true) : ∃ a, wordOf t s a = w :=
  (OpcodeRow.has_fields h).imp fun _ => And.right

end Rows

/-- A word in the row of a step is the word of a step of that row: only the operand may differ (R82). -/
theorem exists_step_of_row_has (i : Instr) {w : Word} (h : i.row.has w = true) : ∃ j, j.row = i.row ∧ encode j = w := by
  cases i with
  | wlvAck _ => exact (OpcodeRow.has_level (t := 1) (s := 0) h).imp' Instr.wlvAck fun _ => .intro rfl
  | wlvPwr _ => exact (OpcodeRow.has_level (t := 1) (s := 1) h).imp' Instr.wlvPwr fun _ => .intro rfl
  | wfe => exact ⟨.wfe, rfl, OpcodeRow.has_exact (t := 1) (s := 2) h⟩
  | wre => exact ⟨.wre, rfl, OpcodeRow.has_exact (t := 1) (s := 3) h⟩
  | wsl _ => exact (OpcodeRow.has_byte (t := 1) (s := 4) h).imp' Instr.wsl fun _ => .intro rfl
  | wsh _ => exact (OpcodeRow.has_byte (t := 1) (s := 5) h).imp' Instr.wsh fun _ => .intro rfl
  | rdyl => exact ⟨.rdyl, rfl, OpcodeRow.has_exact (t := 2) (s := 0) h⟩
  | rdyh => exact ⟨.rdyh, rfl, OpcodeRow.has_exact (t := 2) (s := 1) h⟩
  | rdyt => exact ⟨.rdyt, rfl, OpcodeRow.has_exact (t := 2) (s := 2) h⟩
  | rdf _ => exact (OpcodeRow.has_byte (t := 3) (s := 0) h).imp' Instr.rdf fun _ => .intro rfl
  | wrf _ => exact (OpcodeRow.has_payload (t := 4) (s := 0) h).imp' Instr.wrf fun _ => .intro rfl
  | rawb _ => exact (OpcodeRow.has_byte (t := 5) (s := 0) h).imp' Instr.rawb fun _ => .intro rfl
  | dlyu _ => exact (OpcodeRow.has_tag (t := 6) h).imp' Instr.dlyu fun _ => .intro rfl
  | dlym _ => exact (OpcodeRow.has_tag (t := 7) h).imp' Instr.dlym fun _ => .intro rfl
  | trst => exact ⟨.trst, rfl, OpcodeRow.has_exact (t := 8) (s := 0) h⟩
  | stby => exact ⟨.stby, rfl, OpcodeRow.has_exact (t := 9) (s := 0) h⟩

/-- The word of every step lies in the step's row (R82). -/
theorem row_has_encode (i : Instr) : i.row.has (encode i) = true := by
  cases i with
  | wlvAck v => exact Laws.EncodingRow.wlvAck v
  | wlvPwr v => exact Laws.EncodingRow.wlvPwr v
  | wfe => exact Laws.EncodingRow.wfe
  | wre => exact Laws.EncodingRow.wre
  | wsl d => exact Laws.EncodingRow.wsl d
  | wsh d => exact Laws.EncodingRow.wsh d
  | rdyl => exact Laws.EncodingRow.rdyl
  | rdyh => exact Laws.EncodingRow.rdyh
  | rdyt => exact Laws.EncodingRow.rdyt
  | rdf n => exact Laws.EncodingRow.rdf n
  | wrf k => exact Laws.EncodingRow.wrf k
  | rawb v => exact Laws.EncodingRow.rawb v
  | dlyu c => exact Laws.EncodingRow.dlyu c
  | dlym c => exact Laws.EncodingRow.dlym c
  | trst => exact Laws.EncodingRow.trst
  | stby => exact Laws.EncodingRow.stby

/-- One step of each row, in the order of the opcode map. -/
def stepOfEachRow : List Instr :=
  [.wlvAck false, .wlvPwr false, .wfe, .wre, .wsl 0, .wsh 0, .rdyl, .rdyh, .rdyt, .rdf 0, .wrf 0, .rawb 0, .dlyu 0,
    .dlym 0, .trst, .stby]

theorem map_row_stepOfEachRow : stepOfEachRow.map Instr.row = opcodeTable := rfl

/-- The opcode map lists the rows of the steps and no other row (R82). -/
theorem mem_opcodeTable_iff {r : OpcodeRow} : r ∈ opcodeTable ↔ ∃ i : Instr, i.row = r := by
  constructor
  · rw [← map_row_stepOfEachRow]
    exact fun h => (List.mem_map.1 h).imp fun _ => And.right
  · rintro ⟨i, rfl⟩
    cases i <;> simp [opcodeTable, Instr.row]

/-- A row of the map holds a word iff the word decodes to a step of the row (R82). -/
theorem row_has_iff_decode {r : OpcodeRow} (hr : r ∈ opcodeTable) (w : Word) :
    r.has w = true ↔ ∃ i, decode w = .ok i ∧ i.row = r := by
  constructor
  · obtain ⟨i, rfl⟩ := mem_opcodeTable_iff.1 hr
    intro h
    obtain ⟨j, hrow, rfl⟩ := exists_step_of_row_has i h
    exact ⟨j, decodeInvertsEncode j, hrow⟩
  · rintro ⟨i, hi, rfl⟩
    exact encodeInvertsDecode w i hi ▸ row_has_encode i

/-- Settles O3: a row holds a word iff the word decodes to a step of the row, and the rows are listed once each. -/
theorem legalWordLiesInOneRow : Obligations.LegalWordLiesInOneRow := by
  intro w
  have nodup : opcodeTable.Nodup := by decide
  split
  next i hi =>
    have isRow : ∀ r ∈ opcodeTable, r.has w = decide (r = i.row) := fun r hr => by
      rw [Bool.eq_iff_iff, row_has_iff_decode hr, decide_eq_true_iff, hi]
      exact ⟨fun ⟨j, hj, hrow⟩ => by cases hj; exact hrow.symm, fun h => ⟨i, rfl, h.symm⟩⟩
    rw [List.filter_congr isRow, List.filter_eq, List.count_eq_one_of_mem nodup (mem_opcodeTable_iff.2 ⟨i, rfl⟩)]
    rfl
  next why hwhy =>
    refine List.filter_eq_nil_iff.2 fun r hr h => ?_
    obtain ⟨i, hi, -⟩ := (row_has_iff_decode hr w).1 h
    cases hwhy.symm.trans hi

/-! ## The illegal words (R88) -/

section Illegal

variable {s : BitVec 4} {a : Byte}

/-- A checked step is refused iff the check fails. -/
theorem checked_error {c : Prop} [Decidable c] {i : Instr} {why : IllegalWord} :
    (∃ e, (if c then Except.ok i else Except.error why) = .error e) ↔ ¬ c := by
  split <;> simp [*]

theorem decodeBare_error {n : Nat} {i : Instr} {z : BitVec n} : (∃ why, decodeBare i z = .error why) ↔ z ≠ 0 :=
  checked_error

theorem decodeLevel_error {mk : Bool → Instr} : (∃ why, decodeLevel mk a = .error why) ↔ 2 ≤ a.toNat := by
  have high : ∀ a : Byte, ¬ a.extractLsb' 1 7 = 0 ↔ 2 ≤ a.toNat := by decide
  exact checked_error.trans (high a)

theorem decodeWriteFrame_error : (∃ why, decodeWriteFrame a = .error why) ↔ 16 ≤ a.toNat := by
  have high : ∀ a : Byte, ¬ a.extractLsb' 4 4 = 0 ↔ 16 ≤ a.toNat := by decide
  exact checked_error.trans (high a)

theorem decodeSubZero_error {r : Except IllegalWord Instr} :
    (∃ why, decodeSubZero s r = .error why) ↔ s ≠ 0 ∨ ∃ why, r = .error why := by
  by_cases hs : s = 0
  · simp [decodeSubZero, hs]
  · exact iff_of_true ⟨.reservedSub, if_neg hs⟩ (.inl hs)

theorem decodeWait_error : (∃ why, decodeWait s a = .error why) ↔
    6 ≤ s.toNat ∨ (s.toNat ≤ 1 ∧ 2 ≤ a.toNat) ∨ ((s = 2 ∨ s = 3) ∧ a ≠ 0) := by
  obtain rfl | rfl | rfl | rfl | rfl | rfl | hs := wait_sub_cases s
  · exact decodeLevel_error.trans (by simp)
  · exact decodeLevel_error.trans (by simp)
  · exact decodeBare_error.trans (by simp)
  · exact decodeBare_error.trans (by simp)
  · simp [decodeWait]
  · simp [decodeWait]
  · simp [decodeWait_reserved hs, hs]

theorem decodeReady_error : (∃ why, decodeReady s a = .error why) ↔ 3 ≤ s.toNat ∨ a ≠ 0 := by
  obtain rfl | rfl | rfl | hs := ready_sub_cases s
  · exact decodeBare_error.trans (by simp)
  · exact decodeBare_error.trans (by simp)
  · exact decodeBare_error.trans (by simp)
  · simp [decodeReady_reserved hs, hs]

end Illegal

/-- Settles O4: what each family's decoder refuses, tag by tag. -/
theorem illegalWordsByClass : Obligations.IllegalWordsByClass := by
  intro w
  obtain ht | ht | ht | ht | ht | ht | ht | ht | ht | ht := tag_cases (tagOf w)
  · rw [decode_waitTag ht, decodeWait_error]
    simp [ht]
  · rw [decode_readyTag ht, decodeReady_error]
    simp [ht]
  · rw [decode_rdfTag ht, decodeSubZero_error]
    simp [ht]
  · rw [decode_wrfTag ht, decodeSubZero_error, decodeWriteFrame_error]
    simp [ht]
  · rw [decode_rawbTag ht, decodeSubZero_error]
    simp [ht]
  · simp [decode_dlyuTag ht, ht]
  · simp [decode_dlymTag ht, ht]
  · rw [decode_trstTag ht, decodeSubZero_error, decodeBare_error, ne_eq (opOf w), op_eq_zero_iff]
    simp [ht, imp_iff_not_or]
  · rw [decode_stbyTag ht, decodeSubZero_error, decodeBare_error, ne_eq (opOf w), op_eq_zero_iff]
    simp [ht, imp_iff_not_or]
  · exact iff_of_true ⟨_, decode_reservedTag ht⟩ (.inl ht)

/-- Settles O12: SEQ fetches, and the fetch of an illegal word raises `IllegalStep`, which is all that `TRAP` writes. -/
theorem illegalWordFaultsAtFetch : Obligations.IllegalWordFaultsAtFetch := by
  intro s why hen htodo hwhy
  calc Machine.seqStep s
      = Machine.fetch s := Machine.seqStep_fetch hen htodo
    _ = .next (s.raise .illegalStep) := Machine.fetch_illegal hwhy

end Sys2Proof

/-! PROOFS. The statements of `spec/40_signal_line.md`: the ready line (R101), the sampling of the input lines and who
sets their levels (R102), and the delay (R103 to R105). -/

namespace Sys2Proof.Machine

/-! ## The ready line and the delay counter (R101, R103) -/

/-- Settles O16: `SETRDY` completes whenever SEQ tries it. -/
theorem setrdyDrivesReadyLine : Obligations.SetrdyDrivesReadyLine := by
  intro s b rest hen htodo
  have done : perform (.setrdy b) s = .advance { s with rdy := b } := rfl
  exact seqStep_advance hen htodo done

/-- Settles O18: `LDT` completes whenever SEQ tries it. -/
theorem ldtLoadsDelay : Obligations.LdtLoadsDelay := by
  intro s d rest hen htodo
  have done : perform (.ldt d) s = .advance { s with dly := d } := rfl
  exact seqStep_advance hen htodo done

/-! ## Sampling a line (R102) -/

/-- SEQ at a blocking primitive: past it where its condition is met, else nothing changes (R9). -/
theorem seqStep_of_completeIff {s : State} {p : Prim} {rest : List Prim} {cond : Bool} (he : s.seqEnabled = true)
    (hs : s.todo = p :: rest) (hp : perform p s = completeIff cond s) :
    seqStep s = .next (if cond then { s with todo := rest } else s) := by
  cases cond with
  | false => exact seqStep_hold he hs hp
  | true => exact seqStep_advance he hs hp

/-- SEQ at `WAITL`: past it where the line reads the awaited level, else nothing changes. -/
theorem seqStep_waitl {s : State} {l : Line} {v : Bool} {rest : List Prim} (he : s.seqEnabled = true)
    (hs : s.todo = .waitl l v :: rest) : seqStep s = .next (if s.level l = v then { s with todo := rest } else s) := by
  have h := seqStep_of_completeIff (cond := s.level l == v) he hs rfl
  simpa only [beq_iff_eq] using h

/-! ## The owners of the lines (R36, R196, R240) -/

/-- No step of SEQ moves an input line, a fault's or a fetch's included. -/
theorem seqStep_keeps_lines {s t : State} (h : seqStep s = .next t) : t.ack = s.ack ∧ t.pwr = s.pwr := by
  obtain rfl | ⟨p, rest, u, _, hp, rfl⟩ | ⟨_, c, rfl⟩ | ⟨_, i, rfl⟩ := seqStep_outcomes h
  · exact ⟨rfl, rfl⟩
  · obtain ⟨-, -, -, -, -, hpwr, hack, -⟩ := perform_keeps hp
    exact ⟨hack, hpwr⟩
  · exact ⟨rfl, rfl⟩
  · exact ⟨rfl, rfl⟩

/-- Each event leaves a line as it was, or is PEER setting that line to its new level. -/
theorem act_lines {e : Event} {s t : State} (h : act e s = .next t) :
    (t.ack = s.ack ∨ e = .ack t.ack) ∧ (t.pwr = s.pwr ∨ e = .pwr t.pwr) := by
  cases e with
  | seq => exact (seqStep_keeps_lines h).imp .inl .inl
  | ack v =>
    cases h
    exact ⟨.inr rfl, .inl rfl⟩
  | pwr v =>
    cases h
    exact ⟨.inl rfl, .inr rfl⟩
  | rst v =>
    cases h
    cases v <;> exact ⟨.inl rfl, .inl rfl⟩
  | tick =>
    cases h
    rw [tick_keeps]
    exact ⟨.inl rfl, .inl rfl⟩
  | clkFall =>
    cases h
    rw [clkFall_keeps]
    exact ⟨.inl rfl, .inl rfl⟩
  | clkRise drv =>
    cases h
    rw [clkRise_keeps]
    exact ⟨.inl rfl, .inl rfl⟩

/-- Settles O17: SEQ only samples the lines, and PEER alone sets them, each by its own event. -/
theorem waitlSamplesTheLine : Obligations.WaitlSamplesTheLine := by
  refine ⟨fun _ _ _ _ => seqStep_waitl, fun e s t l h hne => ?_⟩
  obtain ⟨hack, hpwr⟩ := act_lines h
  cases l with
  | ack => exact hack.resolve_left hne
  | pwr => exact hpwr.resolve_left hne

/-! ## The delay runs down (R104, R105) -/

/-- Settles O19: a `Tick` writes `DLY` alone and stops at 0, where `WAITT` completes. -/
theorem delayCountsDownToZero : Obligations.DelayCountsDownToZero := by
  refine ⟨fun s hrst => ⟨tick s, rfl, tick_keeps s, tick_toNat hrst⟩, fun s rest hen htodo => ?_⟩
  have hzero : s.dly = 0 ↔ s.dly.toNat = 0 := BitVec.toNat_eq
  simpa only [hzero] using seqStep_waitt hen htodo

end Sys2Proof.Machine

/-! PROOFS. The statements of `spec/41_byte_transport.md`: the transport primitives (R123 to R126, R128, R129), the edges of
`CLK` (R121, R122), and the two directions of a byte, which are one run of pulses (R132 to R134). -/

namespace Sys2Proof.Machine

/-! ## Primitives that always complete (R123, R124) -/

/-- Settles O20: `SETDIR` completes whenever SEQ tries it. -/
theorem setdirWritesDirection : Obligations.SetdirWritesDirection := by
  intro s d rest hen htodo
  have done : perform (.setdir d) s = .advance { s with datOe := d } := rfl
  exact seqStep_advance hen htodo done

/-- Settles O21: `CLRTC` completes whenever SEQ tries it. -/
theorem dummyReadClearsFlag : Obligations.DummyReadClearsFlag := by
  intro s rest hen htodo
  have done : perform .clrtc s = .advance { s with tc := false } := rfl
  exact seqStep_advance hen htodo done

/-! ## Reading the data register (R39, R126) -/

/-- A reading shows the bit of the register where it is specified and the bit of the draw where it is not. -/
theorem Reg.getLsbD_read {w : Nat} (r : Reg w) (d : BitVec w) (j : Nat) :
    (r.read d).getLsbD j = if r.unspec.getLsbD j then d.getLsbD j else r.bits.getLsbD j := by
  rw [Reg.read_eq, BitVec.getLsbD_or, BitVec.getLsbD_and, BitVec.getLsbD_and, BitVec.getLsbD_not]
  by_cases hj : j < w
  · cases r.unspec.getLsbD j <;> simp [hj]
  · simp [BitVec.getLsbD_of_ge _ _ (Nat.le_of_not_lt hj)]

/-- A bit of `SR` that is specified is read as it is. -/
theorem State.getLsbD_srNow {s : State} {j : Nat} (h : s.sr.unspec.getLsbD j = false) :
    s.srNow.getLsbD j = s.sr.bits.getLsbD j := by
  rw [State.srNow, Reg.getLsbD_read, h, if_neg Bool.false_ne_true]

/-- Settles O23: `GETB` completes with the reading of `SR` by the step's own draw, and a reading goes bit by bit. -/
theorem getbTakesTheDataRegister : Obligations.GetbTakesTheDataRegister := by
  intro s rest hen htodo
  have done : perform .getb s =
      .advance { s with byte := Reg.known s.srNow, tc := false, draws := s.draws + 1 } := rfl
  exact ⟨seqStep_advance hen htodo done, s.sr.getLsbD_read⟩

/-! ## The edges of `CLK` (R121, R122) -/

theorem State.engEnabled_of_released {s : State} (h : s.rst = false) : s.engEnabled = s.en := by
  simp [State.engEnabled, h]

theorem State.engEnabled_of_off {s : State} (h : s.en = false) : s.engEnabled = false := by
  simp [State.engEnabled, h]

/-- Settles O30: the enabled engine latches bit 0 of its reading of `SR`; the disabled one ignores the fall. -/
theorem clkFallLoadsOutputLatch : Obligations.ClkFallLoadsOutputLatch := by
  refine fun s hrst hclk => ⟨fun hen => ⟨s.srNow.getLsbD 0, ?_, State.getLsbD_srNow⟩, fun hen => ?_⟩
  · rw [act, clkFall_of_enabled hclk (by rw [State.engEnabled_of_released hrst, hen])]
  · rw [act, clkFall_of_disabled hclk (State.engEnabled_of_off hen)]

/-- Settles O32: the rise of an enabled engine is a shift and a count, that of a disabled one is PEER's alone. -/
theorem clkRiseShiftsAndCounts : Obligations.ClkRiseShiftsAndCounts := by
  intro s drv hrst hclk
  refine ⟨clkRise drv s, rfl, ?_⟩
  obtain hen | hen := Bool.eq_false_or_eq_true s.en
  · rw [clkRise_of_enabled drv hclk (by rw [State.engEnabled_of_released hrst, hen])]
    refine ⟨rfl, rfl, rfl, by simp [hen], fun _ => ⟨fun v hv => ?_, bitcntAfterRise_toNat _, tcAfterRise_iff _ _⟩⟩
    have hbits := (Reg.known v).shiftIn_bits (s.pad drv)
    refine ⟨_, hv ▸ Reg.shiftIn_known v _, ?_, fun j hj => ?_⟩
    · exact hbits 7 (by omega)
    · exact (hbits j (by omega)).trans (if_neg (by omega))
  · rw [clkRise_of_disabled drv hclk (State.engEnabled_of_off hen)]
    exact ⟨rfl, rfl, rfl, fun _ => ⟨rfl, rfl, rfl⟩, by simp [hen]⟩

/-! ## The switch of the transport (R128, R129) -/

/-- A disabled transport ignores both edges: no register of CORE changes. -/
theorem act_edge_of_off {s t : State} {e : Event} (hen : s.en = false) (he : isEdge e = true) (h : act e s = .next t) :
    t = { s with clk := t.clk, peerBit := t.peerBit, draws := t.draws } := by
  have hoff := State.engEnabled_of_off hen
  cases e with
  | clkFall =>
    cases h
    cases hclk : s.clk with
    | false => rw [clkFall_of_low hclk]
    | true => rw [clkFall_of_disabled hclk hoff]
  | clkRise drv =>
    cases h
    cases hclk : s.clk with
    | false => rw [clkRise_of_disabled drv hclk hoff]
    | true => rw [clkRise_of_high drv hclk]
  | _ => cases he

/-- Settles O25: `TOFF` and `TON` complete whenever SEQ tries them, and between them the edges are ignored. -/
theorem transportSwitchOffAndOn : Obligations.TransportSwitchOffAndOn := by
  refine ⟨fun s rest hen htodo => ?_, fun s t e => act_edge_of_off, fun s rest hen htodo => ?_⟩
  · have done : perform .toff s = .advance { s with
        en := false, bitcnt := 0, tc := false, datOe := false
        sr := Reg.unspecified, dout := Reg.unspecified } := rfl
    exact seqStep_advance hen htodo done
  · have done : perform .ton s = .advance { s with en := true } := rfl
    exact seqStep_advance hen htodo done

/-! ## Who sets the flag (R27, R125) -/

/-- No step of SEQ sets the flag. -/
theorem seqStep_tc_clear {s t : State} (h : seqStep s = .next t) (hs : s.tc = false) : t.tc = false := by
  obtain rfl | ⟨p, rest, u, -, hp, rfl⟩ | ⟨-, c, rfl⟩ | ⟨-, i, rfl⟩ := seqStep_outcomes h
  · exact hs
  · obtain ⟨-, -, -, -, -, -, -, -, -, -, htc, -⟩ := perform_writes hp
    exact htc.elim (·.trans hs) And.left
  · exact hs
  · exact hs

/-- Only a rise of `CLK` sets the flag. -/
theorem act_sets_tc {e : Event} {s t : State} (h : act e s = .next t) (hs : s.tc = false) (ht : t.tc = true) :
    ∃ drv, e = .clkRise drv := by
  have hreset : e ≠ .rst true := by
    rintro rfl
    cases h
    cases ht
  obtain ⟨-, -, -, -, -, htc, -⟩ := registersHaveTheirWriters e s t h hreset
  refine (htc (by simp [hs, ht])).resolve_right ?_
  rintro ⟨rfl, -⟩
  exact absurd (seqStep_tc_clear h hs) (by simp [ht])

/-- A rise that sets the flag is an enabled one that completes a group of eight. -/
theorem clkRise_sets_tc {drv : Drive} {s : State} (hs : s.tc = false) (ht : (clkRise drv s).tc = true) :
    s.clk = false ∧ s.en = true ∧ s.bitcnt = 7 ∧ (clkRise drv s).bitcnt = 0 := by
  cases hclk : s.clk with
  | true => simp [clkRise_of_high drv hclk, hs] at ht
  | false =>
    cases heng : s.engEnabled with
    | false => simp [clkRise_of_disabled drv hclk heng, hs] at ht
    | true =>
      rw [clkRise_of_enabled drv hclk heng] at ht ⊢
      have h7 : s.bitcnt = 7 := ((tcAfterRise_iff _ _).1 ht).resolve_right (by simp [hs])
      exact ⟨rfl, (Bool.and_eq_true_iff.1 heng).1, h7, if_pos h7⟩

/-- Settles O22: `WAITTC` samples the flag, and among all events only the eighth enabled rise sets it. -/
theorem waittcWaitsForEightRises : Obligations.WaittcWaitsForEightRises := by
  refine ⟨fun s rest hen htodo => seqStep_of_completeIff hen htodo rfl, fun e s t h hs ht => ?_⟩
  obtain ⟨drv, rfl⟩ := act_sets_tc h hs ht
  cases h
  exact ⟨⟨drv, rfl⟩, clkRise_sets_tc hs ht⟩

/-! ## One pulse (R120) -/

/-- The state after a fall and the rise behind it. -/
def State.afterPulse (s : State) (drv : Drive) : State := clkRise drv (clkFall s)

theorem runEvents_pulse (s : State) (drv : Drive) : runEvents (pulse drv) s = .next (s.afterPulse drv) := rfl

/-- PEER samples once in a pulse, at the rise. -/
theorem sampledBits_pulse (s : State) (drv : Drive) : sampledBits (pulse drv) s = [(s.afterPulse drv).peerBit] := rfl

section EnabledPulse

variable {s : State} (hclk : s.clk = true) (heng : s.engEnabled = true)

include hclk heng

/-- An enabled pulse latches bit 0 of `SR`, then shifts the level on `DAT` in and counts; both samples are taken with the
new latch. -/
theorem State.afterPulse_of_enabled (drv : Drive) :
    s.afterPulse drv = { s with
      dout := Reg.known (BitVec.ofBool (s.srNow.getLsbD 0)), sr := s.sr.shiftIn ((clkFall s).pad drv)
      bitcnt := bitcntAfterRise s.bitcnt, tc := tcAfterRise s.bitcnt s.tc
      peerBit := (clkFall s).peerSample drv, draws := s.draws + 4 } := by
  have hfall := clkFall_of_enabled hclk heng
  have hlow : (clkFall s).clk = false := by rw [hfall]
  have hstill : (clkFall s).engEnabled = true := by
    rw [hfall]
    exact heng
  rw [State.afterPulse, clkRise_of_enabled drv hlow hstill]
  simp only [hfall, ← hclk]

/-- CORE drives and PEER does not: both sides see the bit just latched, bit 0 of `SR` (R133). -/
theorem State.samples_of_transmit {b : Bool} (hoe : s.datOe = true) (hsr : s.sr.unspec.getLsbD 0 = false)
    (hb : s.sr.bits.getLsbD 0 = b) : (clkFall s).pad .z = b ∧ (clkFall s).peerSample .z = b := by
  have hfall := clkFall_of_enabled hclk heng
  obtain ⟨-, hdriven, -⟩ := datLevelTable (clkFall s) b b
  refine (hdriven (by rw [hfall]; exact hoe) ?_).1
  rw [hfall, State.getLsbD_srNow hsr, hb]

end EnabledPulse

/-- CORE does not drive and PEER does: both sides see PEER's level (R132). -/
theorem State.samples_of_receive {s : State} (b : Bool) (hoe : s.datOe = false) :
    (clkFall s).pad (.level b) = b ∧ (clkFall s).peerSample (.level b) = b := by
  obtain ⟨hreleased, -⟩ := datLevelTable (clkFall s) b b
  exact hreleased (by rw [clkFall_keeps]; exact hoe)

/-! ## A run of pulses (R132 to R134) -/

/-- From `s` to `t` the bits `v[0]` to `v[j-1]` have entered `SR` from the top; the counter and the flag have followed, and
nothing else but `DO`, PEER's sample and the draw counter has changed. -/
structure ShiftedIn (v : Byte) (j : Nat) (s t : State) : Prop where
  bits : ∀ i, i < 8 →
    t.sr.bits.getLsbD i = if 8 ≤ i + j then v.getLsbD (i + j - 8) else s.sr.bits.getLsbD (i + j)
  unspec : ∀ i, i < 8 → t.sr.unspec.getLsbD i = if 8 ≤ i + j then false else s.sr.unspec.getLsbD (i + j)
  bitcnt : t.bitcnt.toNat = (s.bitcnt.toNat + j) % 8
  tc : t.tc = true ↔ s.tc = true ∨ 8 ≤ s.bitcnt.toNat + j
  frame : t = { s with
    sr := t.sr, dout := t.dout, bitcnt := t.bitcnt, tc := t.tc, peerBit := t.peerBit, draws := t.draws }

namespace ShiftedIn

variable {v : Byte} {j : Nat} {s t : State}

theorem zero (v : Byte) (s : State) : ShiftedIn v 0 s s where
  bits i hi := by simp [Nat.not_le.2 hi]
  unspec i hi := by simp [Nat.not_le.2 hi]
  bitcnt := (Nat.mod_eq_of_lt s.bitcnt.isLt).symm
  tc := by simp [s.bitcnt.isLt]
  frame := rfl

theorem clk (h : ShiftedIn v j s t) : t.clk = s.clk := by rw [h.frame]

theorem datOe (h : ShiftedIn v j s t) : t.datOe = s.datOe := by rw [h.frame]

theorem engEnabled (h : ShiftedIn v j s t) : t.engEnabled = s.engEnabled := by
  rw [h.frame]
  rfl

/-- One more pulse, in which CORE sees the next bit on `DAT`. -/
theorem step {drv : Drive} (h : ShiftedIn v j s t) (hclk : s.clk = true) (heng : s.engEnabled = true)
    (hpad : (clkFall t).pad drv = v.getLsbD j) : ShiftedIn v (j + 1) s (t.afterPulse drv) := by
  have hpulse := State.afterPulse_of_enabled (h.clk.trans hclk) (h.engEnabled.trans heng) drv
  rw [hpad] at hpulse
  rw [hpulse]
  refine ⟨fun i hi => ?_, fun i hi => ?_, ?_, ?_, ?_⟩
  · rw [Reg.shiftIn_bits _ _ i hi]
    split
    · next h7 => rw [h7, if_pos (by omega), show 7 + (j + 1) - 8 = j by omega]
    · next h7 => rw [h.bits (i + 1) (by omega), Nat.add_right_comm, Nat.add_assoc]
  · rw [Reg.shiftIn_unspec _ _ i hi]
    split
    · next h7 => rw [h7, if_pos (by omega)]
    · next h7 => rw [h.unspec (i + 1) (by omega), Nat.add_right_comm, Nat.add_assoc]
  · rw [bitcntAfterRise_toNat, h.bitcnt]
    omega
  · have h7 : t.bitcnt = 7 ↔ (s.bitcnt.toNat + j) % 8 = 7 := by rw [← h.bitcnt, BitVec.toNat_eq]; rfl
    have hfull : (s.bitcnt.toNat + j) % 8 = 7 ∨ 8 ≤ s.bitcnt.toNat + j ↔ 8 ≤ s.bitcnt.toNat + (j + 1) := by omega
    rw [tcAfterRise_iff, h7, h.tc, or_left_comm, hfull]
  · rw [h.frame]

/-- A run of pulses in each of which both sides see the next bit of `v` shifts those bits in, and PEER samples them. -/
theorem run {drv : Nat → Drive} (hclk : s.clk = true) (heng : s.engEnabled = true) (j : Nat)
    (hsees : ∀ i, i < j → ∀ u, ShiftedIn v i s u →
      (clkFall u).pad (drv i) = v.getLsbD i ∧ (clkFall u).peerSample (drv i) = v.getLsbD i) :
    sampledBits ((List.range j).flatMap fun i => pulse (drv i)) s = (List.range j).map v.getLsbD ∧
      ∃ t, runEvents ((List.range j).flatMap fun i => pulse (drv i)) s = .next t ∧ ShiftedIn v j s t := by
  induction j with
  | zero => exact ⟨rfl, s, rfl, zero v s⟩
  | succ j ih =>
    obtain ⟨hsampled, t, hrun, ht⟩ := ih fun i hi => hsees i (by omega)
    obtain ⟨hpad, hpeer⟩ := hsees j (by omega) t ht
    have hbit : (t.afterPulse (drv j)).peerBit = v.getLsbD j := by
      rw [State.afterPulse_of_enabled (ht.clk.trans hclk) (ht.engEnabled.trans heng), hpeer]
    refine ⟨?_, _, ?_, ht.step hclk heng hpad⟩
    · simp only [List.range_succ, List.flatMap_append, List.flatMap_singleton, List.map_append, List.map_singleton]
      rw [sampledBits_append hrun, hsampled, sampledBits_pulse, hbit]
    · simp only [List.range_succ, List.flatMap_append, List.flatMap_singleton]
      rw [runEvents_append hrun, runEvents_pulse]

/-- After eight bits `SR` holds the byte, whatever it held before. -/
theorem sr_eq (h : ShiftedIn v 8 s t) : t.sr = Reg.known v := by
  have hbits : t.sr.bits = v := BitVec.eq_of_getLsbD_eq fun i hi => by simpa using h.bits i hi
  have hunspec : t.sr.unspec = 0 := BitVec.eq_of_getLsbD_eq fun i hi => by simpa using h.unspec i hi
  rw [Reg.known, ← hbits, ← hunspec]

/-- While a known `v` is rotated, bit 0 of `SR` is the next bit of `v`. -/
theorem bit_zero (h : ShiftedIn v j s t) (hsr : s.sr = Reg.known v) (hj : j < 8) :
    t.sr.unspec.getLsbD 0 = false ∧ t.sr.bits.getLsbD 0 = v.getLsbD j := by
  have hbits := h.bits 0 (by omega)
  have hunspec := h.unspec 0 (by omega)
  simp only [Nat.zero_add, if_neg (Nat.not_le.2 hj), hsr] at hbits hunspec
  exact ⟨by simpa using hunspec, hbits⟩

end ShiftedIn

/-- The first `j` pulses of a byte PEER drives: its bits enter, and PEER samples what it drives (R132). -/
theorem shiftedIn_sendBits {s : State} (hclk : s.clk = true) (heng : s.engEnabled = true) (hoe : s.datOe = false)
    (v : Byte) (j : Nat) :
    sampledBits (sendBits v j) s = (List.range j).map v.getLsbD ∧
      ∃ t, runEvents (sendBits v j) s = .next t ∧ ShiftedIn v j s t :=
  ShiftedIn.run hclk heng j fun i _ _ hu => State.samples_of_receive (v.getLsbD i) (hu.datOe.trans hoe)

/-- Eight pulses in which CORE drives and PEER does not: the byte in `SR` goes out and enters again at the top (R133). -/
theorem shiftedIn_clockByte {s : State} {v : Byte} (hclk : s.clk = true) (heng : s.engEnabled = true)
    (hoe : s.datOe = true) (hsr : s.sr = Reg.known v) :
    sampledBits clockByte s = wireBits v ∧ ∃ t, runEvents clockByte s = .next t ∧ ShiftedIn v 8 s t := by
  refine ShiftedIn.run hclk heng 8 fun i hi u hu => ?_
  obtain ⟨hunspec, hbit⟩ := hu.bit_zero hsr hi
  exact State.samples_of_transmit (hu.clk.trans hclk) (hu.engEnabled.trans heng) (hu.datOe.trans hoe) hunspec hbit

/-- Settles O33: each pulse shifts PEER's next bit in, so the run of `j` pulses does so for `j` bits. -/
theorem pulsesShiftBitsIn : Obligations.PulsesShiftBitsIn := by
  intro s v j _ hrst hen hclk hoe
  have heng : s.engEnabled = true := (State.engEnabled_of_released hrst).trans hen
  obtain ⟨-, t, hrun, ht⟩ := shiftedIn_sendBits hclk heng hoe v j
  exact ⟨t, hrun, fun i hi => ⟨ht.bits i hi, ht.unspec i hi⟩, ht.bitcnt, ht.tc, ht.frame⟩

/-- Settles O34: the bits of `SR` themselves are what the eight pulses shift in, so that it ends as it began. -/
theorem byteIsTransmittedLsbFirst : Obligations.ByteIsTransmittedLsbFirst := by
  intro s v hrst hen hclk hoe hcount hsr
  have heng : s.engEnabled = true := (State.engEnabled_of_released hrst).trans hen
  obtain ⟨hsampled, t, hrun, ht⟩ := shiftedIn_clockByte hclk heng hoe hsr
  have hround : t.bitcnt = 0 := BitVec.eq_of_toNat_eq (by simp [ht.bitcnt, hcount])
  have hflag : t.tc = true := ht.tc.2 (.inr (by omega))
  have hframe := ht.frame
  rw [ht.sr_eq, ← hsr, hround, ← hcount, hflag] at hframe
  exact ⟨hsampled, t, hrun, ht.sr_eq, hround, hflag, hframe⟩

end Sys2Proof.Machine

/-! PROOFS. The statements of `spec/42_framed_channel.md`: the checksum and buffer primitives (R141 to R143), the length of a
frame (R153), and the two checksum laws, invariants of the script step under way (R145 to R147). -/

namespace Sys2Proof.Machine

/-! ## The checksum and buffer primitives (R141, R142, R143) -/

/-- A known byte latch has its own value (R8, R39). -/
theorem State.val_byte {s : State} {v : Byte} (h : s.byte = Reg.known v) : s.val .byte = v := by
  rw [State.val, h, Reg.read_known]

theorem perform_stb {s : State} {i : Byte} (hi : i.toNat < rxbufSize) :
    perform (.stb i) s = .advance ((s.rxWrite i (s.val .byte)).passDraws 1) :=
  if_pos hi

theorem seqStep_acc {s : State} {src : Src} {rest : List Prim} (hen : s.seqEnabled = true)
    (htodo : s.todo = .acc src :: rest) :
    seqStep s = .next { s with csum := s.csum + s.val src, todo := rest, draws := s.draws + 1 } :=
  seqStep_advance hen htodo rfl

/-- Settles O26: both primitives complete whenever SEQ tries them, and a sum of bytes is the sum of their values modulo
256. -/
theorem checksumAccumulates : Obligations.ChecksumAccumulates := by
  refine ⟨fun s rest hen htodo => ?_, fun s rest hen htodo => ?_, fun s k i rest hen htodo => ?_⟩
  · have done : perform .clrsum s = .advance { s with csum := 0 } := rfl
    exact seqStep_advance hen htodo done
  · exact ⟨_, s.val .byte, seqStep_acc hen htodo, rfl, BitVec.toNat_add _ _, fun _ => State.val_byte⟩
  · exact ⟨_, seqStep_acc hen htodo, rfl, BitVec.toNat_add _ _⟩

/-- Settles O27: the index is one of `RXBUF`, so `STB` completes with one write to the buffer. -/
theorem stbStoresOneEntry : Obligations.StbStoresOneEntry := by
  intro s i rest hi hen htodo
  have done := seqStep_advance hen htodo (perform_stb (Nat.lt_succ_of_le hi))
  have entries := s.rxEntry_rxWrite i (s.val .byte)
  refine ⟨_, s.val .byte, done, fun _ => State.val_byte, entries, fun j hj => ?_, rfl⟩
  have stored : (s.rxWrite i (s.val .byte)).rxEntry j = Reg.known (s.val .byte) := (entries j).trans (if_pos hj)
  exact (congrArg (Reg.read · _) stored).trans (Reg.read_known _ _)

/-! ## The fetch of a read frame (R151) -/

/-- Settles O13: for 0 the fetch raises `FramePrecondition`; otherwise it loads `TODO`, which a fault leaves empty. -/
theorem readFrameOfZeroFaults : Obligations.ReadFrameOfZeroFaults := by
  intro s n
  change exec (.rdf n) s = .next (s.raise .framePrecondition) ↔ _
  rw [exec, execRdf]
  split
  · rename_i hzero
    simp [hzero]
  · rename_i hpos
    exact iff_of_false (fun h => State.load_ne_raise s _ _ (Host.Outcome.next.inj h)) hpos

/-! ## The length of a frame (R153) -/

theorem length_readLoop (c i : Nat) : (readLoop c i).length = 8 * c := by
  induction c generalizing i with
  | zero => rfl
  | succ c ih =>
    have hbyte : (readLoopByte i).length = 8 := rfl
    rw [readLoop, List.length_append, hbyte, ih]
    omega

theorem length_writeLoop (t : Byte) (k : BitVec 4) (c i : Nat) : (writeLoop t k c i).length = 11 * c := by
  induction c generalizing i with
  | zero => rfl
  | succ c ih =>
    have hbyte : (writeLoopByte t k i).length = 11 := rfl
    rw [writeLoop, List.length_append, hbyte, ih]
    omega

/-- Settles O10: eight primitives for each byte of a read loop and eleven for each of a write loop; the rest of a frame has
a fixed length. -/
theorem framePrimitiveCounts : Obligations.FramePrimitiveCounts := by
  refine ⟨fun n hn => ?_, fun t k n => ?_, fun s l => List.length_append⟩
  · have hlast : (readLastByte (n - 1)).length = 7 := rfl
    have hreply : readReply.length = 10 := rfl
    rw [readFrame, List.length_append, List.length_append, List.length_append, length_readLoop, hlast, hreply,
      List.length_singleton]
    omega
  · have hlen : (waitFallingEdge ++ toggleReady ++ writeByte (.imm n) ++ [Prim.clrsum]).length = 10 := rfl
    have hsum : (settleCycle t ++ writeByte .csumr).length = 10 := rfl
    rw [writeFrame, List.append_assoc _ (settleCycle t), List.length_append, List.length_append, length_writeLoop, hlen,
      hsum]
    omega

/-! ## Invariants of the script step under way (R26, R160, R161) -/

/-- The states agree in what a frame under way is judged by: the configuration, what remains of the step, the accumulator,
the byte latch and the receive buffer. -/
structure SameFrame (s t : State) : Prop where
  cfg   : t.cfg = s.cfg
  todo  : t.todo = s.todo
  csum  : t.csum = s.csum
  byte  : t.byte = s.byte
  rxbuf : t.rxbuf = s.rxbuf

/-- `TODO` is what remains of the usable step at `PC`, and while something remains, `Q` holds of that step. -/
def State.alongStep (Q : Instr → State → Prop) (s : State) : Prop :=
  s.onStep ∧ ∀ i, usableStep s.cfg s.pc.toNat = some i → s.todo ≠ [] → Q i s

/-- `Q` looks at the frame alone, holds of a step just loaded, and is kept by each primitive of the step that completes. -/
structure KeptAlong (Q : Instr → State → Prop) : Prop where
  frame : ∀ {i : Instr} {s t : State}, SameFrame s t → Q i s → Q i t
  load : ∀ {i : Instr} {s : State}, usableStep s.cfg s.pc.toNat = some i → Q i (s.load (expand s i))
  advance : ∀ {i : Instr} {s u : State} {p : Prim} {rest : List Prim}, usableStep s.cfg s.pc.toNat = some i →
    p :: rest <:+ expand s i ++ [.next] → s.todo = p :: rest → perform p s = .advance u → Q i s → Q i { u with todo := rest }

theorem State.alongStep_of_todo_nil {Q : Instr → State → Prop} {s : State} (hs : s.todo = []) : s.alongStep Q :=
  ⟨.inl hs, fun _ _ h => absurd hs h⟩

/-- Whatever stands in `TODO` is the rest of the step decoded at `PC`, so `Q` holds of that step. -/
theorem State.alongStep.of_decode {Q : Instr → State → Prop} {s : State} {i : Instr} (hs : s.alongStep Q)
    (hne : s.todo ≠ []) (hdecode : decode s.scriptWord = .ok i) : Q i s := by
  obtain ⟨j, hj, _⟩ := hs.1.resolve_left hne
  have hji : j = i := Except.ok.inj ((usableStep_iff.1 hj).1.symm.trans hdecode)
  exact hs.2 i (hji ▸ hj) hne

/-- A state at the same `PC` under the same configuration is on the same step with what remains of it. -/
theorem State.onStep_of_suffix {s t : State} {i : Instr} (hcfg : t.cfg = s.cfg) (hpc : t.pc = s.pc)
    (hi : usableStep s.cfg s.pc.toNat = some i) (htodo : t.todo <:+ expand s i ++ [.next]) : t.onStep :=
  .inr ⟨i, by rw [hcfg, hpc, hi], by rwa [expand_congr hcfg]⟩

theorem State.onStep.congr {s t : State} (hs : s.onStep) (hcfg : t.cfg = s.cfg) (hpc : t.pc = s.pc)
    (htodo : t.todo = s.todo) : t.onStep := by
  obtain hnil | ⟨i, hi, hsuf⟩ := hs
  · exact .inl (htodo.trans hnil)
  · exact State.onStep_of_suffix hcfg hpc hi (htodo ▸ hsuf)

namespace KeptAlong

variable {Q : Instr → State → Prop}

theorem alongStep_congr (hQ : KeptAlong Q) {s t : State} (hs : s.alongStep Q) (hpc : t.pc = s.pc)
    (hst : SameFrame s t) : t.alongStep Q := by
  refine ⟨hs.1.congr hst.cfg hpc hst.todo, fun i hi hne => hQ.frame hst (hs.2 i ?_ (hst.todo ▸ hne))⟩
  rwa [hst.cfg, hpc] at hi

/-- A completed primitive leaves the script on the step, or was its `NEXT` and leaves nothing of it. -/
theorem alongStep_advance (hQ : KeptAlong Q) {s u : State} {p : Prim} {rest : List Prim} (hs : s.alongStep Q)
    (htodo : s.todo = p :: rest) (hp : perform p s = .advance u) : ({ u with todo := rest } : State).alongStep Q := by
  have hne : s.todo ≠ [] := by simp [htodo]
  obtain ⟨i, hi, hsuf⟩ := hs.1.resolve_left hne
  rw [htodo] at hsuf
  obtain ⟨hlast, hinner⟩ := suffix_cons_next hsuf (next_not_mem_expand s i)
  by_cases hnext : p = .next
  · exact State.alongStep_of_todo_nil (hlast hnext)
  · have hcfg : u.cfg = s.cfg := (perform_keeps hp).1
    have hpc : u.pc = s.pc := (perform_pc hp).1 hnext
    refine ⟨State.onStep_of_suffix hcfg hpc hi (hinner hnext).1, fun j hj _ => ?_⟩
    obtain rfl : i = j := Option.some.inj (hi.symm.trans (by rw [← hcfg, ← hpc]; exact hj))
    exact hQ.advance hi hsuf htodo hp (hs.2 i hi hne)

/-- Every event of every agent keeps the script on its step and `Q` of that step. -/
theorem alongStep_act (hQ : KeptAlong Q) {e : Event} {s t : State} (hs : s.alongStep Q) (h : act e s = .next t) :
    t.alongStep Q := by
  have hcfg := act_cfg h
  obtain ⟨htodo, hpc, hcsum, hbyte, hrx, _⟩ | ⟨hnil, _⟩ | ⟨_, p, rest, u, htodo, hp, rfl⟩ | ⟨hnil, _⟩ | ⟨_, i, hi, rfl⟩ :=
    act_cases h
  · exact hQ.alongStep_congr hs hpc ⟨hcfg, htodo, hcsum, hbyte, hrx⟩
  · exact State.alongStep_of_todo_nil hnil
  · exact hQ.alongStep_advance hs htodo hp
  · exact State.alongStep_of_todo_nil hnil
  · refine ⟨State.onStep_of_suffix rfl rfl hi (List.suffix_refl _), fun j hj _ => ?_⟩
    obtain rfl : i = j := Option.some.inj (hi.symm.trans hj)
    exact hQ.load hi

theorem alongStep_step (hQ : KeptAlong Q) {s t : State} (hs : s.alongStep Q) (h : step s = .next t) : t.alongStep Q :=
  step_keeps_of_act (fun _ _ _ hs => hQ.alongStep_congr hs rfl ⟨rfl, rfl, rfl, rfl, rfl⟩)
    (fun _ _ _ hs h => hQ.alongStep_act hs h) hs h

/-- In every run from a state between script steps `Q` holds of the step under way (R10). -/
theorem of_run (hQ : KeptAlong Q) {s t : State} {k : Nat} {i : Instr} (hs : s.todo = [])
    (h : Sys2Proof.core.run k s = .next t) (hdecode : decode t.scriptWord = .ok i) (hne : t.todo ≠ []) : Q i t :=
  (run_keeps_of_step (fun _ _ hs h => hQ.alongStep_step hs h) k (State.alongStep_of_todo_nil hs) h).of_decode hne hdecode

end KeptAlong

/-! ## A written frame (R146, R147) -/

/-- Of a written frame, what is still to be added brings `CSUM` to the sum of the payload. -/
def addsUpToPayload (i : Instr) (s : State) : Prop :=
  ∀ k, i = .wrf k → s.todo.foldl s.sumAfter s.csum = byteSum (s.payload k)

theorem writeSums_iff (s : State) : s.writeSums ↔ s.alongStep addsUpToPayload :=
  and_congr_right fun _ =>
    ⟨fun h _ hi hne k hik => h k (hik ▸ hi) hne, fun h k hk hne => h (.wrf k) hk hne k rfl⟩

theorem State.sumAfter_congr {s t : State} (h : t.cfg = s.cfg) : t.sumAfter = s.sumAfter := by
  funext c p
  cases p with
  | acc src => cases src <;> simp [State.sumAfter, State.promByte, State.payloadAddress, State.payloadEntry, h]
  | _ => rfl

theorem State.payload_congr {s t : State} (h : t.cfg = s.cfg) (k : BitVec 4) : t.payload k = s.payload k := by
  simp [State.payload, State.promByte, State.payloadAddress, State.payloadEntry, h]

theorem source_of_acc_mem_writeLoop {t : Byte} {k : BitVec 4} {src : Src} {c i : Nat}
    (h : Prim.acc src ∈ writeLoop t k c i) : ∃ j, src = .pay k j := by
  induction c generalizing i with
  | zero => simp [writeLoop] at h
  | succ c ih =>
    rw [writeLoop, List.mem_append] at h
    obtain h | h := h
    · exact ⟨BitVec.ofNat 8 i, by simpa [writeLoopByte, settleCycle, waitLevelLow, toggleReady, writeByte] using h⟩
    · exact ih h

/-- A written frame adds payload bytes only (R146). -/
theorem source_of_acc_mem_writeFrame {t : Byte} {k : BitVec 4} {n : Byte} {src : Src}
    (h : Prim.acc src ∈ writeFrame t k n ++ [.next]) : ∃ j, src = .pay k j := by
  refine source_of_acc_mem_writeLoop (t := t) (c := n.toNat) (i := 0) ?_
  simpa [writeFrame, waitFallingEdge, settleCycle, waitLevelLow, toggleReady, writeByte] using h

/-- What the primitives of a written frame do to `CSUM` is what `sumAfter` says (R141, R142). -/
theorem csum_of_perform {p : Prim} {s u : State} (hp : ∀ src, p = .acc src → ∃ k j, src = .pay k j)
    (h : perform p s = .advance u) : u.csum = s.sumAfter s.csum p := by
  cases p with
  | clrsum => cases h; rfl
  | acc src =>
    obtain ⟨k, j, rfl⟩ := hp src rfl
    cases h
    rfl
  | _ =>
    obtain ⟨_, _, hcsum, _⟩ := perform_writes h
    exact hcsum.resolve_right (by simp)

/-- The write loop adds its payload bytes in order. -/
theorem sumAfter_writeLoop (s : State) (t : Byte) (k : BitVec 4) (c i : Nat) (a : Byte) :
    (writeLoop t k c i).foldl s.sumAfter a =
      ((List.range' i c).map fun j => s.promByte (s.payloadAddress k (BitVec.ofNat 8 j))).foldl (· + ·) a := by
  induction c generalizing i a with
  | zero => rfl
  | succ c ih =>
    have hbyte : (writeLoopByte t k i).foldl s.sumAfter a = a + s.promByte (s.payloadAddress k (BitVec.ofNat 8 i)) := rfl
    rw [writeLoop, List.foldl_append, hbyte, ih, List.range'_succ, List.map_cons, List.foldl_cons]

/-- A written frame leaves the sum of its payload, whatever the accumulator held before (R146). -/
theorem sumAfter_writeFrame (s : State) (t : Byte) (k : BitVec 4) (a : Byte) :
    (writeFrame t k (s.payloadEntry k).len ++ [Prim.next]).foldl s.sumAfter a = byteSum (s.payload k) := by
  have hlen (n : Byte) :
      (waitFallingEdge ++ toggleReady ++ writeByte (.imm n) ++ [Prim.clrsum]).foldl s.sumAfter a = 0 := rfl
  have hsum (c : Byte) : (settleCycle t ++ (writeByte .csumr ++ [Prim.next])).foldl s.sumAfter c = c := rfl
  rw [writeFrame, List.append_assoc, List.append_assoc, List.foldl_append, hsum, List.foldl_append, hlen,
    sumAfter_writeLoop, ← List.range_eq_range']
  rfl

theorem addsUpToPayload_kept : KeptAlong addsUpToPayload where
  frame hst hs k hk := by
    rw [hst.todo, hst.csum, State.sumAfter_congr hst.cfg, State.payload_congr hst.cfg]
    exact hs k hk
  load {i s} _ k hk := by
    subst hk
    exact sumAfter_writeFrame s _ k _
  advance {i s u p rest} _ hsuf htodo hp hs k hk := by
    subst hk
    have hcfg : u.cfg = s.cfg := (perform_keeps hp).1
    have hadded : u.csum = s.sumAfter s.csum p := by
      refine csum_of_perform (fun src hsrc => ⟨k, ?_⟩) hp
      exact source_of_acc_mem_writeFrame (hsrc ▸ hsuf.subset List.mem_cons_self)
    rw [State.sumAfter_congr (t := { u with todo := rest }) hcfg, State.payload_congr (t := { u with todo := rest }) hcfg]
    calc rest.foldl s.sumAfter u.csum
        = s.todo.foldl s.sumAfter s.csum := by rw [hadded, htodo, List.foldl_cons]
      _ = byteSum (s.payload k) := hs k rfl

/-- Settles O57: the law is kept along the script step; at the reply nothing is left to add. -/
theorem writeFrameChecksumLaw : Obligations.WriteFrameChecksumLaw := by
  have kept := addsUpToPayload_kept
  refine ⟨fun s t hs h => ?_, fun s hs => ?_, fun s t j k hs hrun hdecode hreply => ?_⟩
  · exact (writeSums_iff t).2 (kept.alongStep_step ((writeSums_iff s).1 hs) h)
  · exact (writeSums_iff s).2 (State.alongStep_of_todo_nil hs)
  · have hsum := kept.of_run hs hrun hdecode (by simp [hreply]) k rfl
    rwa [hreply] at hsum

/-! ## A read frame (R145, R147) -/

/-- The primitives by which `count` bytes are taken, added and stored, from byte `i` on (R145). -/
def byteHandling (count i : Nat) : List Prim :=
  match count with
  | 0 => []
  | c + 1 => .getb :: .acc .byte :: .stb (BitVec.ofNat 8 i) :: byteHandling c (i + 1)

theorem byteHandling_add (c d i : Nat) : byteHandling (c + d) i = byteHandling c i ++ byteHandling d (i + c) := by
  induction c generalizing i with
  | zero => simp [byteHandling]
  | succ c ih => simp [byteHandling, Nat.succ_add, ih, Nat.add_assoc]

/-- What stands in `byteHandling` is one of the three primitives of some byte `j`, with the rest of that byte and the
bytes behind it. -/
theorem byteHandling_suffix {p : Prim} {rest : List Prim} {c i : Nat} (h : p :: rest <:+ byteHandling c i) :
    ∃ j d, i ≤ j ∧ j + d + 1 = i + c ∧
      ((p = .getb ∧ rest = .acc .byte :: .stb (BitVec.ofNat 8 j) :: byteHandling d (j + 1)) ∨
        (p = .acc .byte ∧ rest = .stb (BitVec.ofNat 8 j) :: byteHandling d (j + 1)) ∨
        (p = .stb (BitVec.ofNat 8 j) ∧ rest = byteHandling d (j + 1))) := by
  induction c generalizing i with
  | zero => simp [byteHandling] at h
  | succ c ih =>
    simp only [byteHandling, List.suffix_cons_iff, List.cons.injEq] at h
    obtain h | h | h | h := h
    · exact ⟨i, c, Nat.le_refl i, by omega, .inl h⟩
    · exact ⟨i, c, Nat.le_refl i, by omega, .inr (.inl h)⟩
    · exact ⟨i, c, Nat.le_refl i, by omega, .inr (.inr h)⟩
    · obtain ⟨j, d, hij, hjd, hp⟩ := ih h
      exact ⟨j, d, by omega, by omega, hp⟩

/-- Of the read loop, what handles bytes. -/
theorem filter_readLoop (c i : Nat) : (readLoop c i).filter Prim.handlesByte = byteHandling c i := by
  induction c generalizing i with
  | zero => rfl
  | succ c ih =>
    have hbyte : (readLoopByte i).filter Prim.handlesByte = byteHandling 1 i := rfl
    rw [readLoop, List.filter_append, hbyte, ih]
    rfl

theorem clrsum_not_mem_readLoop (c i : Nat) : Prim.clrsum ∉ readLoop c i := by
  induction c generalizing i with
  | zero => simp [readLoop]
  | succ c ih => simp [readLoop, readLoopByte, readByte, toggleReady, ih]

/-- Behind its one `CLRSUM`, a read frame handles its bytes in order, each by the same three primitives (R145). -/
theorem readFrame_eq {n : Nat} (hn : n ≠ 0) :
    ∃ tail, readFrame n ++ [.next] = .clrsum :: tail ∧ Prim.clrsum ∉ tail ∧
      tail.filter Prim.handlesByte = byteHandling n 0 := by
  refine ⟨readLoop (n - 1) 0 ++ readLastByte (n - 1) ++ readReply ++ [.next], rfl, ?_, ?_⟩
  · simp [clrsum_not_mem_readLoop, readLastByte, readReply, readByte, waitFallingEdge, waitRisingEdge, writeByte]
  · have hlast : (readLastByte (n - 1)).filter Prim.handlesByte = byteHandling 1 (n - 1) := rfl
    have hreply : (readReply ++ [Prim.next]).filter Prim.handlesByte = [] := rfl
    have hbytes := byteHandling_add (n - 1) 1 0
    rw [Nat.sub_add_cancel (Nat.pos_of_ne_zero hn), Nat.zero_add] at hbytes
    rw [List.append_assoc, List.filter_append, List.filter_append, filter_readLoop, hlast, hreply, List.append_nil,
      hbytes]

/-- A usable `RDF` reads at least one byte (R93a, R151). -/
theorem rdf_ne_zero_of_usable {c : Config} {pc : Nat} {n : Byte} (h : usableStep c pc = some (.rdf n)) :
    n.toNat ≠ 0 := by
  have hwf := (usableStep_iff.1 h).2
  intro hzero
  simp [Instr.wellFormed, Instr.frameOk, BitVec.eq_of_toNat_eq (y := 0) hzero] at hwf

/-- How many bytes are stored shows in the primitives that handle bytes alone. -/
theorem storedBytes_filter (n : Byte) (l : List Prim) : storedBytes n (l.filter Prim.handlesByte) = storedBytes n l := by
  induction l with
  | nil => rfl
  | cons p l ih => cases p <;> simp [List.filter_cons, Prim.handlesByte, storedBytes, ih]

/-- With the `d` bytes from byte `j` on still to be handled, `j` bytes are stored. -/
theorem storedBytes_byteHandling {n : Byte} {d j : Nat} (h : j + d = n.toNat) : storedBytes n (byteHandling d j) = j := by
  cases d with
  | zero => exact h.symm
  | succ d =>
    have hlt := n.isLt
    simp only [byteHandling, storedBytes, BitVec.toNat_ofNat]
    omega

theorem byteSum_concat (bs : List Byte) (v : Byte) : byteSum (bs ++ [v]) = byteSum bs + v := by
  simp [byteSum]

/-- `RXBUF` holds the bytes in order from entry 0. -/
def State.holdsBytes (s : State) (bs : List Byte) : Prop :=
  ∀ (j : Fin rxbufSize) (b : Byte), bs[j.val]? = some b → s.rxEntry j = Reg.known b

/-- What `CSUM` and the byte latch hold when the bytes `bs` are stored and `head` is the next primitive that handles a
byte. -/
def State.latchState (s : State) (bs : List Byte) (head : Option Prim) : Prop :=
  match head with
  | some (.stb _) => ∃ v, s.byte = Reg.known v ∧ s.csum = byteSum bs + v
  | some (.acc _) => (∃ v, s.byte = Reg.known v) ∧ s.csum = byteSum bs
  | _ => s.csum = byteSum bs

/-- With `todo` ahead of it, a read frame of `n` bytes has stored and summed the bytes before. -/
def State.sumsBytes (s : State) (n : Byte) (todo : List Prim) : Prop :=
  ∃ bs : List Byte, bs.length = storedBytes n todo ∧ s.holdsBytes bs ∧ s.latchState bs (todo.find? Prim.handlesByte)

/-- Of a read frame whose `CLRSUM` has run, the bytes stored so far are summed. -/
def sumsStoredBytes (i : Instr) (s : State) : Prop :=
  ∀ n, i = .rdf n → .clrsum ∉ s.todo → s.sumsBytes n s.todo

theorem readSums_iff (s : State) : s.readSums ↔ s.alongStep sumsStoredBytes :=
  and_congr_right fun _ =>
    ⟨fun h _ hi hne n hin => h n (hin ▸ hi) hne, fun h n hn hne => h (.rdf n) hn hne n rfl⟩

/-- Only the primitives that handle bytes matter. -/
theorem State.sumsBytes_filter {s : State} {n : Byte} {l : List Prim} :
    s.sumsBytes n (l.filter Prim.handlesByte) ↔ s.sumsBytes n l := by
  simp only [State.sumsBytes, storedBytes_filter, ← List.head?_filter, List.filter_filter, Bool.and_self]

theorem State.holdsBytes_congr {s t : State} (h : t.rxbuf = s.rxbuf) {bs : List Byte} (hs : s.holdsBytes bs) :
    t.holdsBytes bs :=
  fun j b hb => (State.rxEntry_congr h j).trans (hs j b hb)

theorem State.sumsBytes_congr {s t : State} {n : Byte} {l : List Prim} (hcsum : t.csum = s.csum) (hbyte : t.byte = s.byte)
    (hrx : t.rxbuf = s.rxbuf) (hs : s.sumsBytes n l) : t.sumsBytes n l := by
  obtain ⟨bs, hlen, hbs, hlatch⟩ := hs
  refine ⟨bs, hlen, State.holdsBytes_congr hrx hbs, ?_⟩
  simpa only [State.latchState, hcsum, hbyte] using hlatch

/-- A byte stored behind those that are stored (R143). -/
theorem State.holdsBytes_concat {s : State} {bs : List Byte} {i : Byte} (hs : s.holdsBytes bs)
    (hi : i.toNat = bs.length) (v : Byte) : (s.rxWrite i v).holdsBytes (bs ++ [v]) := by
  intro j b hb
  rw [State.rxEntry_rxWrite]
  by_cases hj : j.val = i.toNat
  · obtain rfl : v = b := by simpa [hj, hi] using hb
    rw [if_pos hj]
  · have hlt : j.val < bs.length := by
      have hle := (List.getElem?_eq_some_iff.1 hb).1
      rw [List.length_append, List.length_singleton] at hle
      omega
    rw [if_neg hj]
    exact hs j b (by rwa [List.getElem?_append_left hlt] at hb)

/-- Between two bytes of a read frame, the `j` bytes before are stored and `CSUM` is their sum. -/
theorem State.sumsBytes_byteHandling {s : State} {n : Byte} {j d : Nat} (h : j + d = n.toNat) :
    s.sumsBytes n (byteHandling d j) ↔ ∃ bs : List Byte, bs.length = j ∧ s.holdsBytes bs ∧ s.csum = byteSum bs := by
  rw [State.sumsBytes, storedBytes_byteHandling h]
  cases d <;> rfl

/-- Each of the three primitives of a byte that completes brings the accumulator, the latch and the buffer to what the
next one needs (R145). -/
theorem State.sumsBytes_handled {s u : State} {n : Byte} {p : Prim} {rest : List Prim}
    (hsuf : p :: rest <:+ byteHandling n.toNat 0) (hp : perform p s = .advance u) (hs : s.sumsBytes n (p :: rest)) :
    u.sumsBytes n rest := by
  have hn := n.isLt
  obtain ⟨j, d, _, hjd, ⟨rfl, rfl⟩ | ⟨rfl, rfl⟩ | ⟨rfl, rfl⟩⟩ := byteHandling_suffix hsuf
  · obtain ⟨bs, hlen, hbs, hsum⟩ := hs
    cases hp
    exact ⟨bs, hlen, hbs, ⟨_, rfl⟩, hsum⟩
  · obtain ⟨bs, hlen, hbs, ⟨v, hv⟩, hsum⟩ := hs
    cases hp
    refine ⟨bs, hlen, hbs, v, hv, ?_⟩
    simp [State.val_byte hv, hsum]
  · obtain ⟨bs, hlen, hbs, v, hv, hsum⟩ := hs
    have hj : (BitVec.ofNat 8 j).toNat = j := (BitVec.toNat_ofNat j 8).trans (Nat.mod_eq_of_lt (by omega))
    have hlen : bs.length = j := hlen.trans hj
    rw [perform_stb (hj.trans_lt (show j < 255 by omega)), State.val_byte hv] at hp
    cases hp
    refine (State.sumsBytes_byteHandling (by omega)).2 ⟨bs ++ [v], by simp [hlen], ?_, ?_⟩
    · exact State.holdsBytes_concat hbs (hj.trans hlen.symm) v
    · simp [hsum, byteSum_concat]

/-- A primitive that handles no byte and does not clear the accumulator leaves the three registers alone (R145). -/
theorem State.sumsBytes_unhandled {s u : State} {n : Byte} {p : Prim} {rest : List Prim} (hh : p.handlesByte = false)
    (hc : p ≠ .clrsum) (hp : perform p s = .advance u) (hs : s.sumsBytes n (p :: rest)) : u.sumsBytes n rest := by
  obtain ⟨_, hbyte, hcsum, hrx, _⟩ := perform_writes hp
  have hget : p ≠ .getb := by rintro rfl; cases hh
  have hacc : ¬ ∃ src, p = .acc src := by rintro ⟨src, rfl⟩; cases hh
  have hstb : ¬ ∃ i, p = .stb i := by rintro ⟨i, rfl⟩; cases hh
  refine State.sumsBytes_congr (hcsum.resolve_right (not_or.2 ⟨hc, hacc⟩)) (hbyte.resolve_right hget)
    (hrx.resolve_right hstb) ?_
  rwa [← State.sumsBytes_filter, List.filter_cons_of_neg (by simp [hh]), State.sumsBytes_filter] at hs

/-- Behind its `CLRSUM` a read frame has nothing stored and nothing summed (R141). -/
theorem State.sumsBytes_cleared {s : State} {n : Byte} {todo : List Prim}
    (htodo : todo.filter Prim.handlesByte = byteHandling n.toNat 0) (hs : s.csum = 0) : s.sumsBytes n todo := by
  rw [← State.sumsBytes_filter, htodo, State.sumsBytes_byteHandling (Nat.zero_add _)]
  exact ⟨[], rfl, fun _ _ hb => by simp at hb, hs⟩

/-- Behind its `CLRSUM`, every primitive of a read frame that completes keeps the stored bytes summed. -/
theorem State.sumsBytes_advance {s u : State} {n : Byte} {p : Prim} {rest tail : List Prim} (hsuf : p :: rest <:+ tail)
    (hclr : Prim.clrsum ∉ tail) (htail : tail.filter Prim.handlesByte = byteHandling n.toNat 0)
    (hp : perform p s = .advance u) (hs : s.sumsBytes n (p :: rest)) : u.sumsBytes n rest := by
  cases hh : p.handlesByte with
  | false =>
    have hne : p ≠ .clrsum := fun h => hclr (hsuf.subset (h ▸ List.mem_cons_self))
    exact State.sumsBytes_unhandled hh hne hp hs
  | true =>
    have hcons : (p :: rest).filter Prim.handlesByte = p :: rest.filter Prim.handlesByte := List.filter_cons_of_pos hh
    have hfilter := hsuf.filter Prim.handlesByte
    rw [hcons, htail] at hfilter
    rw [← State.sumsBytes_filter, hcons] at hs
    exact State.sumsBytes_filter.1 (State.sumsBytes_handled hfilter hp hs)

theorem sumsStoredBytes_kept : KeptAlong sumsStoredBytes where
  frame hst hs n hn hclr := by
    rw [hst.todo] at hclr ⊢
    exact State.sumsBytes_congr hst.csum hst.byte hst.rxbuf (hs n hn hclr)
  load {i s} _ n hn hclr := by
    subst hn
    exact absurd (by simp [expand, readFrame]) hclr
  advance {i s u p rest} hi hsuf htodo hp hs n hn _ := by
    subst hn
    obtain ⟨tail, hframe, hclr, htail⟩ := readFrame_eq (rdf_ne_zero_of_usable hi)
    rw [expand, hframe, List.suffix_cons_iff] at hsuf
    refine State.sumsBytes_congr (s := u) rfl rfl rfl ?_
    obtain hstart | hsuf := hsuf
    · obtain ⟨rfl, rfl⟩ := List.cons.inj hstart
      cases hp
      exact State.sumsBytes_cleared htail rfl
    · have hsum := hs n rfl (htodo ▸ fun hm => hclr (hsuf.subset hm))
      rw [htodo] at hsum
      exact State.sumsBytes_advance hsuf hclr htail hp hsum

/-- Settles O56: the law is kept along the script step; at the reply every byte is stored and summed. -/
theorem readFrameChecksumLaw : Obligations.ReadFrameChecksumLaw := by
  have kept := sumsStoredBytes_kept
  refine ⟨fun s t hs h => ?_, fun s hs => ?_, fun s t k n hs hrun hdecode hreply => ?_⟩
  · exact (readSums_iff t).2 (kept.alongStep_step ((readSums_iff s).1 hs) h)
  · exact (readSums_iff s).2 (State.alongStep_of_todo_nil hs)
  · have hsum := kept.of_run hs hrun hdecode (by simp [hreply]) n rfl (by simp [hreply, writeByte])
    rwa [hreply] at hsum

end Sys2Proof.Machine

/-! PROOFS. The statements of `spec/43_session_script.md`: the fetch, `NEXT` and `HALT` (R160 to R163), the steps from
their fetch to their `NEXT` (R165 to R179, R184), and the reference script (R181, R182). -/

namespace Sys2Proof.Machine

/-! ## The fetch, `NEXT` and `HALT` (R160 to R163, R193) -/

/-- Settles O8: what `exec` loads is the expansion itself. -/
theorem fetchLoadsExpansion : Obligations.FetchLoadsExpansion := fun _ _ => exec_wellFormed

/-- Settles O9: a fetch loads an expansion or takes `TRAP`, and `TRAP` leaves `TODO` empty. -/
theorem fetchFrame : Obligations.FetchFrame := by
  intro i s t h
  obtain rfl | ⟨n, -, rfl⟩ | ⟨k, -, rfl⟩ := exec_cases h
  · exact ⟨rfl, fun _ => rfl, fun _ => ⟨rfl, rfl, rfl⟩⟩
  · exact ⟨rfl, fun _ => rfl, fun htodo => absurd rfl htodo⟩
  · exact ⟨rfl, fun _ => rfl, fun htodo => absurd rfl htodo⟩

theorem perform_next {s : State} (h : s.pc ≠ 255) : perform .next s = .advance { s with pc := s.pc + 1 } := if_neg h

/-- Settles O28: below the last index `NEXT` completes, at it `TRAP` is taken. -/
theorem nextAdvancesOrOverruns : Obligations.NextAdvancesOrOverruns := by
  refine fun s rest hen htodo => ⟨fun hpc => ?_, fun hpc => ?_⟩
  · exact ⟨_, seqStep_advance hen htodo (perform_next hpc), rfl, (pc_succ_toNat hpc).2⟩
  · have htrap : perform .next s = .trap .scriptOverrun := if_pos hpc
    rw [seqStep_execute hen htodo, execute, htrap, ← hpc]
    rfl

/-- SEQ at `HALT` changes nothing, whether it may step or not (R163). -/
theorem seqStep_halt {s : State} {rest : List Prim} (htodo : s.todo = .halt :: rest) : seqStep s = .next s := by
  cases hen : s.seqEnabled with
  | false => exact seqStep_disabled hen
  | true => exact seqStep_hold hen htodo rfl

theorem State.endedWell_of_halt {s : State} {rest : List Prim} (hfault : s.fault = 0) (htodo : s.todo = .halt :: rest) :
    s.endedWell = true := by
  simp [State.endedWell, hfault, htodo]

/-- At `HALT` no event but the assertion of `RST` writes `TODO`, `PC` or `FAULT` (R163, R196). -/
theorem act_at_halt {e : Event} {s t : State} {rest : List Prim} (htodo : s.todo = .halt :: rest)
    (h : act e s = .next t) (he : e ≠ .rst true) : t.todo = s.todo ∧ t.pc = s.pc ∧ t.fault = s.fault := by
  cases e with
  | seq =>
    cases (seqStep_halt htodo).symm.trans h
    exact ⟨rfl, rfl, rfl⟩
  | rst level =>
    cases h
    cases level with
    | false => exact ⟨rfl, rfl, rfl⟩
    | true => exact absurd rfl he
  | _ =>
    rw [act_keeps h (by simp) (by simp)]
    exact ⟨rfl, rfl, rfl⟩

/-- Settles O29: only the assertion of `RST` takes `HALT` from the head of `TODO`. -/
theorem haltNeverCompletes : Obligations.HaltNeverCompletes := by
  intro s rest hfault htodo
  refine ⟨seqStep_halt htodo, State.endedWell_of_halt hfault htodo, fun e t h => ⟨fun he => ?_, ?_⟩⟩
  · obtain ⟨htodo', hpc, hfault'⟩ := act_at_halt htodo h he
    exact ⟨State.endedWell_of_halt (hfault'.trans hfault) (htodo'.trans htodo), htodo', hpc⟩
  · rintro rfl
    cases h
    exact ⟨rfl, rfl⟩

/-! ## What lies behind in `TODO` bears on nothing (R8, R160) -/

theorem perform_setTodo {p : Prim} {s u : State} (h : perform p s = .advance u) (l : List Prim) :
    perform p { s with todo := l } = .advance { u with todo := l } := by
  cases p with
  | waitl line v =>
    obtain ⟨hlevel, rfl⟩ := completeIff_eq_advance.1 h
    exact completeIff_eq_advance.2 ⟨hlevel, rfl⟩
  | waitt =>
    obtain ⟨hdly, rfl⟩ := completeIff_eq_advance.1 h
    exact completeIff_eq_advance.2 ⟨hdly, rfl⟩
  | waittc =>
    obtain ⟨htc, rfl⟩ := completeIff_eq_advance.1 h
    exact completeIff_eq_advance.2 ⟨htc, rfl⟩
  | stb i =>
    simp only [perform, doStb] at h ⊢
    split at h
    · cases h
      rw [if_pos ‹_›]
      rfl
    · cases h
  | next =>
    obtain ⟨hpc, -⟩ := (perform_pc h).2 rfl
    cases (perform_next hpc).symm.trans h
    exact perform_next hpc
  | halt => cases h
  | _ =>
    cases h
    rfl

theorem tick_setTodo (s : State) (l : List Prim) : tick { s with todo := l } = { tick s with todo := l } := by
  unfold tick
  by_cases hrst : s.rst = true
  · rw [if_pos hrst, if_pos hrst]
  · rw [if_neg hrst, if_neg hrst]
    by_cases hdly : s.dly = 0
    · rw [if_pos hdly, if_pos hdly]
    · rw [if_neg hdly, if_neg hdly]

theorem clkFall_setTodo (s : State) (l : List Prim) : clkFall { s with todo := l } = { clkFall s with todo := l } := by
  obtain hclk | hclk := Bool.eq_false_or_eq_true s.clk
  · obtain heng | heng := Bool.eq_false_or_eq_true s.engEnabled
    · rw [clkFall_of_enabled hclk heng, clkFall_of_enabled (s := { s with todo := l }) hclk heng]
      rfl
    · rw [clkFall_of_disabled hclk heng, clkFall_of_disabled (s := { s with todo := l }) hclk heng]
  · rw [clkFall_of_low hclk, clkFall_of_low (s := { s with todo := l }) hclk]

theorem State.samples_setTodo (s : State) (l : List Prim) (drv : Drive) :
    State.pad { s with todo := l } drv = s.pad drv ∧ State.peerSample { s with todo := l } drv = s.peerSample drv := by
  cases drv <;> exact ⟨rfl, rfl⟩

theorem clkRise_setTodo (drv : Drive) (s : State) (l : List Prim) :
    clkRise drv { s with todo := l } = { clkRise drv s with todo := l } := by
  obtain ⟨hpad, hpeer⟩ := s.samples_setTodo l drv
  obtain hclk | hclk := Bool.eq_false_or_eq_true s.clk
  · rw [clkRise_of_high drv hclk, clkRise_of_high (s := { s with todo := l }) drv hclk]
  · obtain heng | heng := Bool.eq_false_or_eq_true s.engEnabled
    · rw [clkRise_of_enabled drv hclk heng, clkRise_of_enabled (s := { s with todo := l }) drv hclk heng, hpad, hpeer]
    · rw [clkRise_of_disabled drv hclk heng, clkRise_of_disabled (s := { s with todo := l }) drv hclk heng, hpeer]

theorem act_setTodo {e : Event} {s t : State} (hseq : e ≠ .seq) (hrst : ∀ b, e ≠ .rst b) (h : act e s = .next t)
    (l : List Prim) : act e { s with todo := l } = .next { t with todo := l } := by
  cases e with
  | seq => exact absurd rfl hseq
  | rst b => exact absurd rfl (hrst b)
  | tick => cases h; rw [act, tick_setTodo]
  | clkFall => cases h; rw [act, clkFall_setTodo]
  | clkRise drv => cases h; rw [act, clkRise_setTodo]
  | ack v => cases h; rfl
  | pwr v => cases h; rfl

/-- Events of other agents than SEQ, reset apart: ticks, edges and levels of the pins. -/
def PinEvents (es : List Event) : Prop := ∀ e ∈ es, e ≠ .seq ∧ ∀ b, e ≠ .rst b

theorem runEvents_setTodo {es : List Event} {s t : State} (hes : PinEvents es) (h : runEvents es s = .next t)
    (l : List Prim) :
    runEvents es { s with todo := l } = .next { t with todo := l } ∧
      sampledBits es { s with todo := l } = sampledBits es s := by
  induction es generalizing s with
  | nil => cases h; exact ⟨rfl, rfl⟩
  | cons e es ih =>
    obtain ⟨⟨hseq, hrst⟩, hes⟩ := List.forall_mem_cons.1 hes
    cases hact : act e s with
    | next v =>
      have hact' := act_setTodo hseq hrst hact l
      rw [runEvents_cons hact] at h
      obtain ⟨hrun, hbits⟩ := ih hes h
      refine ⟨(runEvents_cons hact').trans hrun, ?_⟩
      simp only [sampledBits, hact, hact', hbits]
    | fault r => simp [runEvents, hact] at h
    | refused r => simp [runEvents, hact] at h

/-! ## Runs that work primitives off (R9, R160) -/

/-- Under the events `es` SEQ works the primitives `ps` off, whatever `TODO` holds behind them: from `s` to `u`, the
field `todo` of either apart; PEER samples `bits`. -/
structure WorksOff (es : List Event) (ps : List Prim) (bits : List Bool) (s u : State) : Prop where
  run : ∀ rest, runEvents es { s with todo := ps ++ rest } = .next { u with todo := rest }
  samples : ∀ rest, sampledBits es { s with todo := ps ++ rest } = bits

namespace WorksOff

variable {es fs : List Event} {p : Prim} {ps qs : List Prim} {bits cits : List Bool} {s t u : State}

theorem nil (s : State) : WorksOff [] [] [] s s := ⟨fun _ => rfl, fun _ => rfl⟩

theorem append (h : WorksOff es ps bits s t) (k : WorksOff fs qs cits t u) :
    WorksOff (es ++ fs) (ps ++ qs) (bits ++ cits) s u where
  run rest := by rw [List.append_assoc, runEvents_append (h.run _), k.run]
  samples rest := by rw [List.append_assoc, sampledBits_append (h.run _), h.samples, k.samples]

/-- SEQ steps past a primitive that completes. -/
theorem seq (hen : s.seqEnabled = true) (hp : perform p s = .advance t) (k : WorksOff es ps bits t u) :
    WorksOff (.seq :: es) (p :: ps) bits s u := by
  have hstep (rest : List Prim) :
      act .seq { s with todo := p :: (ps ++ rest) } = .next { t with todo := ps ++ rest } :=
    seqStep_advance (s := { s with todo := p :: (ps ++ rest) }) (u := { t with todo := p :: (ps ++ rest) }) hen rfl
      (perform_setTodo hp _)
  refine ⟨fun rest => ?_, fun rest => ?_⟩
  · exact (runEvents_cons (hstep rest)).trans (k.run rest)
  · rw [← k.samples rest, List.cons_append, sampledBits, hstep]

theorem single (hen : s.seqEnabled = true) (hp : perform p s = .advance u) : WorksOff [.seq] [p] [] s u :=
  seq hen hp (nil u)

/-- SEQ tries in vain the primitive it works off later. -/
theorem hold (hp : ∀ l, perform p { s with todo := l } = .hold) (k : WorksOff es (p :: ps) bits s u) :
    WorksOff (.seq :: es) (p :: ps) bits s u := by
  have hstep (rest : List Prim) :
      act .seq { s with todo := p :: ps ++ rest } = .next { s with todo := p :: ps ++ rest } := by
    cases hen : s.seqEnabled with
    | false => exact seqStep_disabled (s := { s with todo := p :: ps ++ rest }) hen
    | true => exact seqStep_hold (s := { s with todo := p :: ps ++ rest }) hen rfl (hp _)
  refine ⟨fun rest => ?_, fun rest => ?_⟩
  · exact (runEvents_cons (hstep rest)).trans (k.run rest)
  · rw [← k.samples rest, sampledBits, hstep]

/-- Other agents work no primitive off. -/
theorem others (hes : PinEvents es) (h : runEvents es s = .next t) : WorksOff es [] (sampledBits es s) s t :=
  ⟨fun rest => (runEvents_setTodo hes h rest).1, fun rest => (runEvents_setTodo hes h rest).2⟩

/-- An event of another agent comes between. -/
theorem other {e : Event} (hseq : e ≠ .seq) (hrst : ∀ b, e ≠ .rst b) (h : act e s = .next t)
    (k : WorksOff es ps bits t u) : WorksOff (e :: es) ps (sampledBits [e] s ++ bits) s u :=
  (others (List.forall_mem_singleton.2 ⟨hseq, hrst⟩) (runEvents_cons h)).append k

/-- PEER moves `ACK`. -/
theorem ack {v : Bool} (k : WorksOff es ps bits { s with ack := v } u) : WorksOff (.ack v :: es) ps bits s u :=
  other (by simp) (by simp) rfl k

/-- PEER moves `PWR`. -/
theorem pwr {v : Bool} (k : WorksOff es ps bits { s with pwr := v } u) : WorksOff (.pwr v :: es) ps bits s u :=
  other (by simp) (by simp) rfl k

/-- A step's primitives worked off from its fetch on (R160). -/
theorem of_load (h : WorksOff es (ps ++ [Prim.next]) bits s u) :
    runEvents es (s.load ps) = .next { u with todo := [] } ∧ sampledBits es (s.load ps) = bits := by
  have hload : s.load ps = { s with todo := ps ++ [Prim.next] ++ [] } := by rw [List.append_nil, State.load]
  rw [hload]
  exact ⟨h.run [], h.samples []⟩

/-- Behind the expansion SEQ works off the `NEXT` (R161, R162). -/
theorem to_next (h : WorksOff es ps bits s u) (hen : u.seqEnabled = true) (hpc : u.pc ≠ 255) :
    runEvents (es ++ [Event.seq]) (s.load ps) = .next { u with pc := u.pc + 1, todo := [] } ∧
      sampledBits (es ++ [Event.seq]) (s.load ps) = bits := by
  have hnext := h.append (single hen (perform_next hpc))
  rw [List.append_nil] at hnext
  exact hnext.of_load

end WorksOff

/-! ## The blocking primitives, where they complete (R102, R104, R125) -/

theorem perform_waitl {s : State} {l : Line} {v : Bool} (h : s.level l = v) : perform (.waitl l v) s = .advance s :=
  completeIff_eq_advance.2 ⟨beq_iff_eq.2 h, rfl⟩

theorem perform_waitt {s : State} (h : s.dly = 0) : perform .waitt s = .advance s :=
  completeIff_eq_advance.2 ⟨beq_iff_eq.2 h, rfl⟩

theorem perform_waittc {s : State} (h : s.tc = true) : perform .waittc s = .advance s :=
  completeIff_eq_advance.2 ⟨h, rfl⟩

/-! ## The steps of the lines and the delay (R165 to R171, R175 to R177, R184) -/

/-- Settles O38: each `SETRDY` completes at its first try. -/
theorem readyLineStepsComplete : Obligations.ReadyLineStepsComplete := by
  intro s hen hpc
  have low : WorksOff [.seq] [.setrdy false] [] s { s with rdy := false } := .single hen rfl
  have high : WorksOff [.seq] [.setrdy true] [] s { s with rdy := true } := .single hen rfl
  have toggled : WorksOff [.seq] [.setrdy true] [] { s with rdy := false } { s with rdy := true } := .single hen rfl
  refine ⟨⟨_, rfl, (low.to_next hen hpc).1⟩, ⟨_, rfl, (high.to_next hen hpc).1⟩, ?_⟩
  exact ⟨_, _, rfl, low.run [.setrdy true, .next], rfl, (toggled.to_next hen hpc).1⟩

theorem worksOff_toggleReady {s : State} (hen : s.seqEnabled = true) :
    WorksOff (seqs 2) toggleReady [] s { s with rdy := true } :=
  .seq hen rfl (.single (s := { s with rdy := false }) hen rfl)

/-- Settles O39: the only primitive completes where the line has the level; before, it holds. -/
theorem levelWaitStepsComplete : Obligations.LevelWaitStepsComplete := by
  intro s v hen hpc
  refine ⟨⟨_, rfl, fun hack => ?_, fun hack => ⟨?_, ?_⟩⟩, ⟨_, rfl, fun hpwr => ?_, fun hpwr => ⟨?_, ?_⟩⟩⟩
  · have done : WorksOff [.seq] [.waitl .ack v] [] s s := .single hen (perform_waitl hack)
    exact (done.to_next hen hpc).1
  · exact seqStep_hold (s := s.load _) hen rfl (perform_waitl_hold.2 hack)
  · have done : WorksOff [.seq, .ack v, .seq] [.waitl .ack v] [] s { s with ack := v } :=
      .hold (fun _ => perform_waitl_hold.2 hack) (.ack (.single hen (perform_waitl rfl)))
    exact (done.to_next hen hpc).1
  · have done : WorksOff [.seq] [.waitl .pwr v] [] s s := .single hen (perform_waitl hpwr)
    exact (done.to_next hen hpc).1
  · exact seqStep_hold (s := s.load _) hen rfl (perform_waitl_hold.2 hpwr)
  · have done : WorksOff [.seq, .pwr v, .seq] [.waitl .pwr v] [] s { s with pwr := v } :=
      .hold (fun _ => perform_waitl_hold.2 hpwr) (.pwr (.single hen (perform_waitl rfl)))
    exact (done.to_next hen hpc).1

/-- An edge of `ACK` from `v` to the other level, sampled before and after (R106, R107). -/
theorem worksOff_edge {s : State} {v : Bool} (hen : s.seqEnabled = true) (hack : s.ack = v) :
    WorksOff [.seq, .ack (!v), .seq] [.waitl .ack v, .waitl .ack (!v)] [] s { s with ack := !v } :=
  .seq hen (perform_waitl hack) (.ack (.single hen (perform_waitl rfl)))

/-- Settles O40: the two samples of an edge, and the hold on the first. -/
theorem edgeWaitStepsComplete : Obligations.EdgeWaitStepsComplete := by
  refine fun s hen hpc => ⟨⟨_, rfl, fun hack => ?_, fun hack => ?_⟩, ⟨_, rfl, fun hack => ?_, fun hack => ?_⟩⟩
  · exact ((worksOff_edge hen hack).to_next hen hpc).1
  · exact seqStep_hold (s := s.load _) hen rfl (perform_waitl_hold.2 (by simp [State.level, hack]))
  · exact ((worksOff_edge hen hack).to_next hen hpc).1
  · exact seqStep_hold (s := s.load _) hen rfl (perform_waitl_hold.2 (by simp [State.level, hack]))

theorem pinEvents_ticks (j : Nat) : PinEvents (List.replicate j Event.tick) := by
  intro e he
  rw [List.eq_of_mem_replicate he]
  exact ⟨by simp, by simp⟩

/-- Ticks run the delay down (R105). -/
theorem worksOff_ticks {s : State} (hen : s.seqEnabled = true) (j : Nat) :
    WorksOff (List.replicate j Event.tick) [] [] s { s with dly := BitVec.ofNat 22 (s.dly.toNat - j) } := by
  have hticks := WorksOff.others (pinEvents_ticks j) (runEvents_ticks j ((State.seqEnabled_iff s).1 hen).1)
  rwa [sampledBits_ticks] at hticks

/-- The delay is loaded and counted down by `j`. -/
theorem worksOff_ldt {s : State} (hen : s.seqEnabled = true) (c : Micros) (j : Nat) :
    WorksOff ([Event.seq] ++ List.replicate j Event.tick) [.ldt c] [] s
      { s with dly := BitVec.ofNat 22 (c.toNat - j) } :=
  .seq hen rfl (worksOff_ticks (s := { s with dly := c }) hen j)

/-- A delay of `n` microseconds completes after `n` ticks (R104). -/
theorem worksOff_delay {s : State} (hen : s.seqEnabled = true) {c : Micros} {n : Nat} (hn : c.toNat = n) :
    WorksOff ([Event.seq] ++ List.replicate n Event.tick ++ [Event.seq]) (delayMicroseconds c) [] s
      { s with dly := 0 } := by
  have hdown := worksOff_ldt hen c n
  rw [hn, Nat.sub_self] at hdown
  exact hdown.append (.single hen (perform_waitt rfl))

/-- Before the last tick SEQ holds at the delay, whatever is behind it. -/
theorem holds_in_delay {s : State} (hen : s.seqEnabled = true) {c : Micros} {j : Nat} (hj : j < c.toNat)
    (rest : List Prim) : ∃ u,
    runEvents ([Event.seq] ++ List.replicate j Event.tick) (s.load (delayMicroseconds c ++ rest)) = .next u ∧
      seqStep u = .next u := by
  have hrun := (worksOff_ldt hen c j).run (.waitt :: (rest ++ [Prim.next]))
  refine ⟨_, hrun, seqStep_hold (rest := rest ++ [Prim.next]) hen rfl (perform_waitt_hold.2 ?_)⟩
  have hlt := c.isLt
  intro hzero
  have hdly : (c.toNat - j) % 2 ^ 22 = 0 := congrArg BitVec.toNat hzero
  omega

/-- A delay step of `n` microseconds, from its fetch on. -/
theorem delay_completes {s : State} (hen : s.seqEnabled = true) (hpc : s.pc ≠ 255) {c : Micros} {n : Nat}
    (hn : c.toNat = n) :
    runEvents ([Event.seq] ++ List.replicate n Event.tick ++ seqs 2) (s.load (delayMicroseconds c)) =
        .next { s with dly := 0, pc := s.pc + 1, todo := [] } ∧
      ∀ j, j < n → ∃ u,
        runEvents ([Event.seq] ++ List.replicate j Event.tick) (s.load (delayMicroseconds c)) = .next u ∧
          seqStep u = .next u := by
  refine ⟨?_, fun j hj => holds_in_delay hen (hn.symm ▸ hj) []⟩
  have hdone := ((worksOff_delay hen hn).to_next hen hpc).1
  rwa [List.append_assoc] at hdone

/-- Settles O42: the counts of the two units are what the delay counter is loaded with. -/
theorem delayStepsComplete : Obligations.DelayStepsComplete := fun _ c hen hpc =>
  ⟨⟨_, rfl, delay_completes hen hpc (microsCount_toNat c)⟩, ⟨_, rfl, delay_completes hen hpc (millisCount_toNat c)⟩⟩

/-- A settled wait for the level `v`, from its fetch on. -/
theorem settledWait_completes {s : State} (hen : s.seqEnabled = true) (hpc : s.pc ≠ 255) (d : Byte) (v : Bool) :
    (s.ack = v → runEvents ([Event.seq] ++ List.replicate d.toNat Event.tick ++ seqs 3)
        (s.load (delayMicroseconds (settleMicros d) ++ [Prim.waitl .ack v])) =
          .next { s with dly := 0, pc := s.pc + 1, todo := [] }) ∧
      ∀ j, j < d.toNat → ∃ u, runEvents ([Event.seq] ++ List.replicate j Event.tick)
        (s.load (delayMicroseconds (settleMicros d) ++ [Prim.waitl .ack v])) = .next u ∧ seqStep u = .next u := by
  have hd := settleMicros_toNat d
  refine ⟨fun hack => ?_, fun j hj => holds_in_delay hen (hd.symm ▸ hj) _⟩
  have hpoll : perform (.waitl .ack v) { s with dly := 0 } = .advance { s with dly := 0 } := perform_waitl hack
  have hdone := (((worksOff_delay hen hd).append (.single hen hpoll)).to_next hen hpc).1
  rwa [List.append_assoc, List.append_assoc] at hdone

/-- Settles O41: a delay, then a poll. -/
theorem settledWaitStepsComplete : Obligations.SettledWaitStepsComplete := fun _ d hen hpc =>
  ⟨⟨_, rfl, settledWait_completes hen hpc d false⟩, ⟨_, rfl, settledWait_completes hen hpc d true⟩⟩

/-! ## One byte over the transport (R130 to R133) -/

/-- The transport is enabled and idle, and SEQ may step: eight pulses make a byte. -/
def State.idle (s : State) : Prop := s.seqEnabled = true ∧ s.en = true ∧ s.clk = true ∧ s.bitcnt = 0

/-- Eight pulses from an idle counter: the byte stands in `SR` and the flag is set. -/
theorem ShiftedIn.full {v : Byte} {s t : State} (h : ShiftedIn v 8 s t) (hcount : s.bitcnt = 0) :
    t = { s with
      sr := Reg.known v, dout := t.dout, tc := true, peerBit := t.peerBit, draws := t.draws } := by
  have hround : t.bitcnt = s.bitcnt := BitVec.eq_of_toNat_eq (by simp [h.bitcnt, hcount])
  have hflag : t.tc = true := h.tc.2 (.inr (by omega))
  have hframe := h.frame
  rwa [h.sr_eq, hround, hflag] at hframe

theorem pinEvents_pulses (drv : Nat → Drive) (j : Nat) : PinEvents ((List.range j).flatMap fun i => pulse (drv i)) := by
  intro e he
  obtain ⟨i, -, hi⟩ := List.mem_flatMap.1 he
  simp only [pulse, List.mem_cons, List.not_mem_nil, or_false] at hi
  obtain rfl | rfl := hi <;> exact ⟨by simp, by simp⟩

theorem State.idle.seqEnabled {s : State} (hs : s.idle) : s.seqEnabled = true := hs.1

theorem State.idle.clk {s : State} (hs : s.idle) : s.clk = true := by
  obtain ⟨-, -, hclk, -⟩ := hs
  exact hclk

theorem State.idle.engEnabled {s : State} (hs : s.idle) : s.engEnabled = true := by
  obtain ⟨hen, hon, -, -⟩ := hs
  exact (State.engEnabled_of_released ((State.seqEnabled_iff s).1 hen).1).trans hon

/-- Eight pulses that shift `v` in, as a run that works nothing off. -/
theorem worksOff_of_shiftedIn {s : State} {es : List Event} {v : Byte} (hs : s.idle) (hes : PinEvents es)
    (h : sampledBits es s = wireBits v ∧ ∃ t, runEvents es s = .next t ∧ ShiftedIn v 8 s t) : ∃ o b d,
    WorksOff es [] (wireBits v) s
      { s with sr := Reg.known v, dout := o, tc := true, peerBit := b, draws := d } := by
  obtain ⟨-, -, -, hcount⟩ := hs
  obtain ⟨hbits, t, hrun, ht⟩ := h
  have hwork := WorksOff.others hes hrun
  rw [hbits, ht.full hcount] at hwork
  exact ⟨_, _, _, hwork⟩

/-- Eight pulses of PEER's byte fill `SR` with it (R132). -/
theorem worksOff_sendByte {s : State} (hs : s.idle) (hoe : s.datOe = false) (v : Byte) : ∃ o b d,
    WorksOff (sendByte v) [] (wireBits v) s
      { s with sr := Reg.known v, dout := o, tc := true, peerBit := b, draws := d } :=
  worksOff_of_shiftedIn hs (pinEvents_pulses (fun i => .level (v.getLsbD i)) 8)
    (shiftedIn_sendBits hs.clk hs.engEnabled hoe v 8)

/-- Eight pulses of PEER while CORE drives: the byte in `SR` goes out and comes round again (R133). -/
theorem worksOff_clockByte {s : State} (hs : s.idle) (hoe : s.datOe = true) {v : Byte} (hsr : s.sr = Reg.known v) :
    ∃ o b d, WorksOff clockByte [] (wireBits v) s
      { s with sr := Reg.known v, dout := o, tc := true, peerBit := b, draws := d } :=
  worksOff_of_shiftedIn hs (pinEvents_pulses (fun _ => .z) 8) (shiftedIn_clockByte hs.clk hs.engEnabled hoe hsr)

/-- A write that leaves the flag clear: of a byte that is not 0, or to a clear flag (R127). -/
theorem perform_putb {s : State} {src : Src} (h : s.tc = false ∨ s.val src ≠ 0) :
    perform (.putb src) s = .advance { s with sr := Reg.known (s.val src), tc := false, draws := s.draws + 1 } := by
  have hclear : tcAfterWrite (s.val src) s.tc (s.drawBit 0) = false := by
    obtain htc | hne := h
    · rw [htc, tcAfterWrite_of_clear]
    · exact tcAfterWrite_of_ne hne _ _
  rw [perform, doPutb, hclear]
  rfl

/-- `s` after CORE has sent a byte: the line is released, the sentinel is in `SR`, the flag is clear (R131). -/
def State.byteSent (s : State) (latch : Reg 1) (sample : Bool) (draws : Nat) : State :=
  { s with
    sr := Reg.known s.cfg.sent.val, tc := false, datOe := false, dout := latch, peerBit := sample, draws := draws }

/-- `writeByte`: the source's value goes out LSB first (R131). A flag set at entry is left to a draw by a zero
write alone (R127, R228). -/
theorem worksOff_writeByte {s : State} (hs : s.idle) {src : Src} (hflag : s.tc = false ∨ s.val src ≠ 0) : ∃ o b d,
    WorksOff transmitEvents (writeByte src) (wireBits (s.val src)) s (s.byteSent o b d) := by
  have hen := hs.seqEnabled
  have hload : WorksOff (seqs 2) [.putb src, .setdir true] [] s
      { s with sr := Reg.known (s.val src), tc := false, datOe := true, draws := s.draws + 1 } :=
    .seq hen (perform_putb hflag) (.single hen rfl)
  obtain ⟨o, b, d, hclock⟩ := worksOff_clockByte
    (s := { s with sr := Reg.known (s.val src), tc := false, datOe := true, draws := s.draws + 1 }) hs rfl rfl
  have hclear : WorksOff (seqs 3) [.waittc, .setdir false, .putb .sent] []
      { s with sr := Reg.known (s.val src), tc := true, datOe := true, dout := o, peerBit := b, draws := d }
      (s.byteSent o b (d + 1)) :=
    .seq hen (perform_waittc rfl) (.seq hen rfl (.single hen (perform_putb (.inr s.cfg.sent.property))))
  have hbyte := (hload.append hclock).append hclear
  rw [List.append_nil] at hbyte
  exact ⟨_, _, _, hbyte⟩

/-- Settles O43: `RAWB` is `writeByte` of its operand. -/
theorem rawByteStepCompletes : Obligations.RawByteStepCompletes := by
  intro s v hen hpc hon hclk hcount hflag
  obtain ⟨o, b, d, hbyte⟩ := worksOff_writeByte (s := s) (src := .imm v) ⟨hen, hon, hclk, hcount⟩ hflag
  obtain ⟨hrun, hbits⟩ := hbyte.to_next hen hpc
  exact ⟨_, _, rfl, hrun, hbits, rfl, rfl, rfl, rfl⟩

/-! ## `TRST` and `STBY` (R178, R179) -/

theorem pinEvents_edges {es : List Event} (hes : ∀ e ∈ es, isEdge e = true) : PinEvents es := by
  intro e he
  have hedge := hes e he
  constructor
  · rintro rfl
    cases hedge
  · rintro b rfl
    cases hedge

theorem act_answers_of_ne_seq {e : Event} (he : e ≠ .seq) (s : State) : ∃ t, act e s = .next t := by
  cases e with
  | seq => exact absurd rfl he
  | _ => exact ⟨_, rfl⟩

/-- Any edges, met by a disabled transport, leave CORE as it was (R128). -/
theorem runEvents_edges_of_off {es : List Event} {s : State} (hes : ∀ e ∈ es, isEdge e = true) (hoff : s.en = false) :
    ∃ t, runEvents es s = .next t ∧ t = { s with clk := t.clk, peerBit := t.peerBit, draws := t.draws } := by
  induction es generalizing s with
  | nil => exact ⟨s, rfl, rfl⟩
  | cons e es ih =>
    obtain ⟨he, hes⟩ := List.forall_mem_cons.1 hes
    obtain ⟨t, ht⟩ := act_answers_of_ne_seq (e := e) (by rintro rfl; cases he) s
    have hframe := act_edge_of_off hoff he ht
    obtain ⟨u, hu, hframe'⟩ := ih hes (s := t) (by rw [hframe]; exact hoff)
    exact ⟨u, (runEvents_cons ht).trans hu, by rw [hframe', hframe]⟩

/-- Settles O46: `TOFF` clears, the disabled engine ignores the edges, `TON` enables. -/
theorem transportResetStepCompletes : Obligations.TransportResetStepCompletes := by
  intro s es hen hpc hes
  obtain ⟨t, hrun, ht⟩ := runEvents_edges_of_off hes (s := { s with
    en := false, bitcnt := 0, tc := false, datOe := false, sr := Reg.unspecified, dout := Reg.unspecified }) rfl
  have hoff : WorksOff [.seq] [.toff] [] s { s with
    en := false, bitcnt := 0, tc := false, datOe := false, sr := Reg.unspecified, dout := Reg.unspecified } :=
    .single hen rfl
  have hedges := WorksOff.others (pinEvents_edges hes) hrun
  rw [ht] at hedges
  have hreset := (hoff.append hedges).append (.single hen (p := .ton) rfl)
  have hdone := (hreset.to_next hen hpc).1
  rw [List.append_assoc] at hdone
  exact ⟨_, _, rfl, hdone, rfl, rfl, rfl, State.tcfg_of_enabled rfl, rfl, rfl, rfl⟩

theorem State.leaveReset_of_released {s : State} (h : s.rst = false) : s.leaveReset = s := by rw [State.leaveReset, ← h]

/-- With `HALT` at the head of `TODO` SEQ tries no other primitive. -/
theorem not_trying_at_halt {e : Event} {s : State} {rest : List Prim} {kind : Prim → Bool}
    (htodo : s.todo = .halt :: rest) (hkind : kind .halt = false) : ¬ trying e s kind := by
  rintro ⟨-, p, rest', htodo', hp⟩
  cases htodo.symm.trans htodo'
  rw [hkind] at hp
  cases hp

/-- What the events `es`, no assertion of `RST` among them, can have changed from `s` to `t` while SEQ stood at `HALT`:
the pins, a delay that was left, and, by edges, the transport registers (R179). -/
structure StandbyKeeps (es : List Event) (s t : State) : Prop where
  dly : s.dly = 0 → t.dly = 0
  transport : (∀ e ∈ es, isEdge e = false) → t.sr = s.sr ∧ t.dout = s.dout ∧ t.bitcnt = s.bitcnt ∧ t.tc = s.tc
  frame : t = { s with
    sr := t.sr, dout := t.dout, bitcnt := t.bitcnt, tc := t.tc, dly := t.dly
    pwr := t.pwr, ack := t.ack, clk := t.clk, peerBit := t.peerBit, draws := t.draws }

namespace StandbyKeeps

variable {es fs : List Event} {e : Event} {rest : List Prim} {s t u : State}

theorem refl (s : State) : StandbyKeeps [] s s := ⟨id, fun _ => ⟨rfl, rfl, rfl, rfl⟩, rfl⟩

theorem trans (h : StandbyKeeps es s t) (k : StandbyKeeps fs t u) : StandbyKeeps (es ++ fs) s u where
  dly := k.dly ∘ h.dly
  transport hedges := by
    obtain ⟨hes, hfs⟩ := List.forall_mem_append.1 hedges
    obtain ⟨hsr, hdout, hcount, htc⟩ := h.transport hes
    obtain ⟨hsr', hdout', hcount', htc'⟩ := k.transport hfs
    exact ⟨hsr'.trans hsr, hdout'.trans hdout, hcount'.trans hcount, htc'.trans htc⟩
  frame := by rw [k.frame, h.frame]

/-- One event at `HALT`: by who writes each register, SEQ writes none. -/
theorem of_act (htodo : s.todo = .halt :: rest) (hreleased : s.rst = false) (he : isReset e = false)
    (h : act e s = .next t) : StandbyKeeps [e] s t := by
  have hreset : e ≠ .rst true := by
    rintro rfl
    cases he
  obtain ⟨-, -, -, -, hdly, htc, -, -, hsr, hdout, hcount, -⟩ := registersHaveTheirWriters e s t h hreset
  have untried {kind : Prim → Bool} (hkind : kind .halt = false) : ¬ trying e s kind := not_trying_at_halt htodo hkind
  refine ⟨fun hzero => ?_, fun hedge => ⟨?_, ?_, ?_, ?_⟩, ?_⟩
  · by_contra hne
    obtain rfl | htry := hdly fun heq => hne (heq.trans hzero)
    · cases h
      exact hne (BitVec.eq_of_toNat_eq (by rw [tick_toNat hreleased, hzero]; rfl))
    · exact untried rfl htry
  · by_contra hne
    exact (hsr hne).elim (by simp [hedge]) (untried rfl)
  · by_contra hne
    exact (hdout hne).elim (by rintro rfl; simp [isEdge] at hedge) (untried rfl)
  · by_contra hne
    exact (hcount hne).elim (by rintro ⟨drv, rfl⟩; simp [isEdge] at hedge) (untried rfl)
  · by_contra hne
    exact (htc hne).elim (by rintro ⟨drv, rfl⟩; simp [isEdge] at hedge) (untried rfl)
  · cases e with
    | seq => cases (seqStep_halt htodo).symm.trans h; rfl
    | rst level =>
      cases h
      cases level with
      | false =>
        have hsame : setRst false s = s := State.leaveReset_of_released hreleased
        rw [hsame]
      | true => exact absurd rfl hreset
    | _ => exact act_keeps h (by simp) (by simp)

/-- A run at `HALT`. -/
theorem of_run (htodo : s.todo = .halt :: rest) (hreleased : s.rst = false) (hes : ∀ e ∈ es, isReset e = false)
    (h : runEvents es s = .next t) : StandbyKeeps es s t := by
  induction es generalizing s with
  | nil =>
    cases h
    exact refl _
  | cons e es ih =>
    obtain ⟨he, hes⟩ := List.forall_mem_cons.1 hes
    cases hact : act e s with
    | next v =>
      rw [runEvents_cons hact] at h
      have hfirst := of_act htodo hreleased he hact
      have hframe := hfirst.frame
      exact hfirst.trans (ih (by rw [hframe]; exact htodo) (by rw [hframe]; exact hreleased) hes h)
    | fault r => simp [runEvents, hact] at h
    | refused r => simp [runEvents, hact] at h

end StandbyKeeps

/-- Settles O47: while SEQ stands at `HALT` the other agents reach nothing the inspection ports or, with `DAT` released,
the wire show. -/
theorem standbyIsForEver : Obligations.StandbyIsForEver := by
  intro s hen
  obtain ⟨hreleased, hfault⟩ := (State.seqEnabled_iff s).1 hen
  refine ⟨_, rfl, rfl, State.endedWell_of_halt hfault rfl, fun es u hes hrun => ?_⟩
  have hkeeps := StandbyKeeps.of_run (s := s.load [.halt]) rfl hreleased hes hrun
  have hframe := hkeeps.frame
  refine ⟨?_, ?_, fun hoe => ?_, hkeeps.dly, hkeeps.transport, hframe⟩
  · rw [hframe]
    exact State.endedWell_of_halt hfault rfl
  · rw [hframe]
    rfl
  · rw [hframe]
    simp [State.wire, hoe]

/-! ## The read frame (R145, R172, R241) -/

/-- `readByte` takes the byte PEER sends (R130). -/
theorem worksOff_readByte {s : State} (hs : s.idle) (v : Byte) : ∃ o b d,
    WorksOff (seqs 2 ++ sendByte v ++ seqs 2) readByte (wireBits v) s
      { s with
        sr := Reg.known v, byte := Reg.known v, tc := false, datOe := false, dout := o, peerBit := b, draws := d } := by
  have hen := hs.seqEnabled
  have hready : WorksOff (seqs 2) [.setdir false, .clrtc] [] s { s with datOe := false, tc := false } :=
    .seq hen rfl (.single hen rfl)
  obtain ⟨o, b, d, hbyte⟩ := worksOff_sendByte (s := { s with datOe := false, tc := false }) hs rfl v
  have htake : WorksOff (seqs 2) [.waittc, .getb] []
      { s with sr := Reg.known v, datOe := false, tc := true, dout := o, peerBit := b, draws := d }
      { s with
        sr := Reg.known v, byte := Reg.known v, tc := false, datOe := false
        dout := o, peerBit := b, draws := d + 1 } := by
    refine .seq hen (perform_waittc rfl) (.single hen ?_)
    rw [perform, doGetb, State.srNow, Reg.read_known]
    rfl
  have hall := (hready.append hbyte).append htake
  rw [List.append_nil] at hall
  exact ⟨_, _, _, hall⟩

theorem perform_accByte {s : State} {v : Byte} (h : s.byte = Reg.known v) :
    perform (.acc .byte) s = .advance { s with csum := s.csum + v, draws := s.draws + 1 } := by
  rw [perform, doAcc, State.val_byte h]
  rfl

theorem perform_stbByte {s : State} {v : Byte} (h : s.byte = Reg.known v) {i : Nat} (hi : i < rxbufSize) :
    perform (.stb (BitVec.ofNat 8 i)) s =
      .advance { s with rxbuf := Memory.insert s.rxbuf i v, draws := s.draws + 1 } := by
  have hindex : (BitVec.ofNat 8 i).toNat = i := Nat.mod_eq_of_lt (Nat.lt_succ_of_lt hi)
  rw [perform_stb (hindex.symm ▸ hi), State.rxWrite, hindex, State.val_byte h]
  rfl

/-- A known byte is added to the checksum and stored (R142, R143). -/
theorem worksOff_accStb {s : State} (hen : s.seqEnabled = true) {v : Byte} (hbyte : s.byte = Reg.known v) {i : Nat}
    (hi : i < rxbufSize) :
    WorksOff (seqs 2) [.acc .byte, .stb (BitVec.ofNat 8 i)] [] s
      { s with csum := s.csum + v, rxbuf := Memory.insert s.rxbuf i v, draws := s.draws + 2 } := by
  have hstb := perform_stbByte (s := { s with csum := s.csum + v, draws := s.draws + 1 }) hbyte hi
  exact .seq hen (perform_accByte hbyte) (.single hen hstb)

/-- `RXBUF` after the bytes have been stored at index `i` and the indices behind it. -/
def storeBytes (m : Memory Byte) (i : Nat) (bs : List Byte) : Memory Byte :=
  match bs with
  | [] => m
  | b :: rest => storeBytes (Memory.insert m i b) (i + 1) rest

theorem lookup_storeBytes (m : Memory Byte) (i : Nat) (bs : List Byte) (j : Nat) :
    Memory.lookup (storeBytes m i bs) j = if j < i then Memory.lookup m j else bs[j - i]?.or (Memory.lookup m j) := by
  induction bs generalizing m i with
  | nil => simp [storeBytes]
  | cons b rest ih =>
    rw [storeBytes, ih]
    obtain hj | rfl | hj := Nat.lt_trichotomy j i
    · rw [if_pos (by omega), if_pos hj, Memory.lookup_insert_ne m b (by omega)]
    · simp
    · rw [if_neg (by omega), if_neg (by omega), Memory.lookup_insert_ne m b (by omega),
        show j - i = j - (i + 1) + 1 by omega, List.getElem?_cons_succ]

/-- From `s` to `u` the bytes `bs` have been received, added to the checksum and stored from `RXBUF[i]` on; of the rest
only what a byte passes through and the ready line have changed. -/
def Received (i : Nat) (bs : List Byte) (s u : State) : Prop :=
  u = { s with
    sr := u.sr, dout := u.dout, tc := false, datOe := false, rdy := u.rdy, byte := u.byte
    csum := bs.foldl (· + ·) s.csum, rxbuf := storeBytes s.rxbuf i bs, peerBit := u.peerBit, draws := u.draws }

theorem Received.cons {i : Nat} {v : Byte} {bs : List Byte} {s t u : State} (h : Received i [v] s t)
    (k : Received (i + 1) bs t u) : Received i (v :: bs) s u := by
  rw [Received, k, h]
  rfl

theorem Received.idle {i : Nat} {bs : List Byte} {s u : State} (h : Received i bs s u) (hs : s.idle) : u.idle := by
  rw [h]
  exact hs

/-- A byte is received, the ready line moves, the byte is added and stored. -/
theorem worksOff_storedByte {s : State} (hs : s.idle) (v : Byte) {i : Nat} (hi : i < rxbufSize) {es : List Event}
    {ps : List Prim} {ready : Bool}
    (hready : ∀ t : State, t.seqEnabled = true → WorksOff es ps [] t { t with rdy := ready }) :
    ∃ u, WorksOff (seqs 2 ++ sendByte v ++ seqs 2 ++ es ++ seqs 2)
        (readByte ++ ps ++ [Prim.acc .byte, Prim.stb (BitVec.ofNat 8 i)]) (wireBits v) s u ∧ Received i [v] s u := by
  have hen := hs.seqEnabled
  obtain ⟨o, b, d, hbyte⟩ := worksOff_readByte hs v
  have hstore := worksOff_accStb (v := v) (s := { s with
    sr := Reg.known v, byte := Reg.known v, tc := false, datOe := false, dout := o, peerBit := b, draws := d
    rdy := ready }) hen rfl hi
  have hall := (hbyte.append (hready _ hen)).append hstore
  rw [List.append_nil, List.append_nil] at hall
  exact ⟨_, hall, rfl⟩

/-- One of the first bytes of a read frame (R145). -/
theorem worksOff_readLoopByte {s : State} (hs : s.idle) (v : Byte) {i : Nat} (hi : i < rxbufSize) : ∃ u,
    WorksOff (seqs 2 ++ sendByte v ++ seqs 6) (readLoopByte i) (wireBits v) s u ∧ Received i [v] s u := by
  obtain ⟨u, hwork, hu⟩ := worksOff_storedByte hs v hi fun _ => worksOff_toggleReady
  rw [List.append_assoc, List.append_assoc] at hwork
  exact ⟨u, hwork, hu⟩

/-- The last byte of a read frame: ready stays low (R145). -/
theorem worksOff_readLastByte {s : State} (hs : s.idle) (v : Byte) {i : Nat} (hi : i < rxbufSize) : ∃ u,
    WorksOff (seqs 2 ++ sendByte v ++ seqs 5) (readLastByte i) (wireBits v) s u ∧ Received i [v] s u := by
  have hlower (t : State) (hen : t.seqEnabled = true) :
      WorksOff (seqs 1) [.setrdy false] [] t { t with rdy := false } := .single hen rfl
  obtain ⟨u, hwork, hu⟩ := worksOff_storedByte hs v hi hlower
  rw [List.append_assoc, List.append_assoc] at hwork
  exact ⟨u, hwork, hu⟩

/-- The bytes of a read frame, each stored where its turn says (R145). -/
theorem worksOff_readBytes (v : Byte) (bs : List Byte) {s : State} (hs : s.idle) {i : Nat}
    (hi : i + bs.length < rxbufSize) : ∃ u,
    WorksOff (readBytesEvents (v :: bs)) (readLoop bs.length i ++ readLastByte (i + bs.length))
      ((v :: bs).flatMap wireBits) s u ∧ Received i (v :: bs) s u := by
  induction bs generalizing v s i with
  | nil =>
    rw [List.flatMap_singleton]
    exact worksOff_readLastByte hs v hi
  | cons w bs ih =>
    rw [List.length_cons] at hi ⊢
    obtain ⟨t, hfirst, ht⟩ := worksOff_readLoopByte hs v (i := i) (by omega)
    obtain ⟨u, hrest, hu⟩ := ih w (ht.idle hs) (i := i + 1) (by omega)
    have hall := hfirst.append hrest
    rw [← List.append_assoc, Nat.add_right_comm, Nat.add_assoc] at hall
    exact ⟨u, hall, ht.cons hu⟩

/-- What PEER and SEQ do at the reply of a read frame, up to its `NEXT` (R241). -/
def replyEvents : List Event :=
  [Event.seq, Event.ack false, Event.seq] ++ seqs 1 ++ [Event.seq, Event.ack true, Event.seq] ++ transmitEvents

/-- The reply: the checksum goes out behind a falling and a rising edge of `ACK`, ready being raised between (R145). -/
theorem worksOff_readReply {s : State} (hs : s.idle) (hack : s.ack = true) (htc : s.tc = false) : ∃ o b d,
    WorksOff replyEvents readReply (wireBits s.csum) s (State.byteSent { s with ack := true, rdy := true } o b d) := by
  have hen := hs.seqEnabled
  have hraise : WorksOff (seqs 1) [.setrdy true] [] { s with ack := false } { s with ack := false, rdy := true } :=
    .single hen rfl
  have hrise := worksOff_edge (s := { s with ack := false, rdy := true }) (v := false) hen rfl
  obtain ⟨o, b, d, hsum⟩ := worksOff_writeByte (s := { s with ack := true, rdy := true }) (src := .csumr) hs (.inl htc)
  exact ⟨o, b, d, (((worksOff_edge hen hack).append hraise).append hrise).append hsum⟩

theorem readFrameEvents_eq (bs : List Byte) :
    readFrameEvents bs = seqs 1 ++ readBytesEvents bs ++ replyEvents ++ [Event.seq] := by
  rw [List.append_assoc]
  rfl

theorem length_flatMap_wireBits (bs : List Byte) : (bs.flatMap wireBits).length = 8 * bs.length := by
  induction bs with
  | nil => rfl
  | cons b bs ih =>
    rw [List.flatMap_cons, List.length_append, ih, List.length_cons, wireBits, List.length_map, List.length_range]
    omega

theorem State.rxEntry_of_stored {s u : State} {bs : List Byte} (h : u.rxbuf = storeBytes s.rxbuf 0 bs)
    (j : Fin rxbufSize) : u.rxEntry j = bs[j.val]?.elim (s.rxEntry j) Reg.known := by
  rw [State.rxEntry, h, lookup_storeBytes, if_neg (Nat.not_lt_zero _), Nat.sub_zero]
  cases bs[j.val]? <;> rfl

/-- Settles O44: the bytes are stored in turn, and their sum is the reply. -/
theorem readFrameStepCompletes : Obligations.ReadFrameStepCompletes := by
  intro s bs n hne hlen hen hpc hon hclk hcount hack
  obtain ⟨v, bs, rfl⟩ := List.exists_cons_of_ne_nil hne
  rw [List.length_cons] at hlen
  have hlast : 0 + bs.length < rxbufSize := by
    have hlt := n.isLt
    simp only [rxbufSize]
    omega
  have hframe : readFrame n.toNat =
      [Prim.clrsum] ++ (readLoop bs.length 0 ++ readLastByte (0 + bs.length)) ++ readReply := by
    rw [← hlen, readFrame, Nat.add_sub_cancel, Nat.zero_add, List.append_assoc [Prim.clrsum]]
  have hn : n ≠ 0 := by
    rintro rfl
    cases hlen
  have hexec : exec (.rdf n) s = .next (s.load (readFrame n.toNat)) :=
    exec_wellFormed (i := .rdf n) (by simpa [Instr.wellFormed, Instr.frameOk, Instr.payloadOk] using hn)
  have hclear : WorksOff (seqs 1) [.clrsum] [] s { s with csum := 0 } := .single hen rfl
  have hs : State.idle { s with csum := 0 } := ⟨hen, hon, hclk, hcount⟩
  obtain ⟨t, hbytes, ht⟩ := worksOff_readBytes v bs hs hlast
  obtain ⟨o, b, d, hreply⟩ := worksOff_readReply (ht.idle hs) (by rw [ht]; exact hack) (by rw [ht])
  obtain ⟨hrun, hbits⟩ := ((hclear.append hbytes).append hreply).to_next (by rw [ht]; exact hen) (by rw [ht]; exact hpc)
  rw [← hframe, ← readFrameEvents_eq] at hrun hbits
  have hstored : t.rxbuf = storeBytes s.rxbuf 0 (v :: bs) := by rw [ht]
  have hsum : t.csum = byteSum (v :: bs) := by rw [ht]; rfl
  have hsampled : ([] ++ (v :: bs).flatMap wireBits ++ wireBits t.csum).drop (8 * (v :: bs).length) =
      wireBits (byteSum (v :: bs)) := by
    rw [List.nil_append, ← length_flatMap_wireBits, List.drop_left, hsum]
  refine ⟨_, _, hexec, hrun, fun j => ?_, hsum, hbits.symm ▸ hsampled, rfl, rfl, rfl, ?_⟩
  · refine (State.rxEntry_of_stored hstored j).trans ?_
    cases (v :: bs)[j.val]? <;> rfl
  · rw [ht]
    exact ⟨hcount, rfl, rfl, rfl, ((State.seqEnabled_iff s).1 hen).2, rfl⟩

/-! ## The written frame (R146, R173, R242) -/

/-- The settle cycle of one byte: PEER leaves `ACK` low, or raises it and lowers it once SEQ has polled it (R242). -/
def settleEvents (t : Byte) (raised : Bool) : List Event :=
  seqs 1 ++ (if raised then [Event.ack true] else []) ++ List.replicate t.toNat Event.tick ++ seqs 1 ++
    (if raised then [Event.seq, Event.ack false] else []) ++ seqs 3

theorem settledByteEvents_eq (t : Byte) (raised : Bool) :
    settledByteEvents t raised = settleEvents t raised ++ transmitEvents ++ seqs 1 := rfl

/-- PEER may raise `ACK`. -/
theorem worksOff_raise {s : State} (hack : s.ack = false) (raised : Bool) :
    WorksOff (if raised then [.ack true] else []) [] [] s { s with ack := raised } := by
  cases raised with
  | false =>
    have hsame : { s with ack := false } = s := by rw [← hack]
    rw [hsame]
    exact .nil s
  | true => exact .ack (.nil _)

/-- SEQ polls `ACK` until PEER has lowered it, and toggles. -/
theorem worksOff_poll {s : State} (hen : s.seqEnabled = true) {raised : Bool} (hack : s.ack = raised) :
    WorksOff ((if raised then [Event.seq, Event.ack false] else []) ++ seqs 3) (.waitl .ack false :: toggleReady) [] s
      { s with ack := false, rdy := true } := by
  have htoggle := worksOff_toggleReady (s := { s with ack := false }) hen
  have hdone : WorksOff (seqs 3) (.waitl .ack false :: toggleReady) [] { s with ack := false }
      { s with ack := false, rdy := true } := .seq hen (perform_waitl rfl) htoggle
  cases raised with
  | false =>
    have hsame : { s with ack := false } = s := by rw [← hack]
    rwa [hsame] at hdone
  | true => exact .hold (fun _ => perform_waitl_hold.2 (by simp [State.level, hack])) (.ack hdone)

/-- Delay, poll and toggle (R146). -/
theorem worksOff_settleCycle {s : State} (hen : s.seqEnabled = true) (hack : s.ack = false) (t : Byte) (raised : Bool) :
    WorksOff (settleEvents t raised) (settleCycle t) [] s { s with ack := false, dly := 0, rdy := true } := by
  have hload : WorksOff (seqs 1) [.ldt (settleMicros t)] [] s { s with dly := settleMicros t } := .single hen rfl
  have hraise := worksOff_raise (s := { s with dly := settleMicros t }) hack raised
  have hticks := worksOff_ticks (s := { s with dly := settleMicros t, ack := raised }) hen t.toNat
  rw [settleMicros_toNat, Nat.sub_self] at hticks
  have hdelay : WorksOff (seqs 1) [.waitt] [] { s with dly := 0, ack := raised } { s with dly := 0, ack := raised } :=
    .single hen (perform_waitt rfl)
  have hpoll := worksOff_poll (s := { s with dly := 0, ack := raised }) hen rfl
  have hall := (((hload.append hraise).append hticks).append hdelay).append hpoll
  rw [← List.append_assoc] at hall
  exact hall

/-- A byte behind the length byte goes out after its settle cycle (R146). -/
theorem worksOff_settledByte {s : State} (hs : s.idle) (hack : s.ack = false) (htc : s.tc = false) (t : Byte)
    (raised : Bool) (src : Src) : ∃ o b d,
    WorksOff (settleEvents t raised ++ transmitEvents) (settleCycle t ++ writeByte src) (wireBits (s.val src)) s
      (State.byteSent { s with ack := false, dly := 0, rdy := true } o b d) := by
  obtain ⟨o, b, d, hbyte⟩ := worksOff_writeByte (s := { s with ack := false, dly := 0, rdy := true }) (src := src) hs
    (.inl htc)
  exact ⟨o, b, d, (worksOff_settleCycle hs.seqEnabled hack t raised).append hbyte⟩

/-- The `c` bytes of payload `k` from byte `i` on (R62). -/
def State.payloadFrom (s : State) (k : BitVec 4) (c i : Nat) : List Byte :=
  (List.range' i c).map fun j => s.promByte (s.payloadAddress k (BitVec.ofNat 8 j))

theorem State.payloadFrom_succ (s : State) (k : BitVec 4) (c i : Nat) :
    s.payloadFrom k (c + 1) i = s.val (.pay k (BitVec.ofNat 8 i)) :: s.payloadFrom k c (i + 1) := by
  rw [State.payloadFrom, List.range'_succ]
  rfl

theorem State.payload_eq (s : State) (k : BitVec 4) : s.payload k = s.payloadFrom k (s.payloadEntry k).len.toNat 0 := by
  rw [State.payload, State.payloadFrom, List.range_eq_range']

/-- From `s` to `u` bytes have been sent and the checksum has become `c`; of the rest only what a byte passes through,
the ready line, `ACK` and the delay have changed. -/
def Sent (c : Byte) (s u : State) : Prop :=
  u = { s with
    sr := u.sr, dout := u.dout, tc := false, datOe := u.datOe, ack := false, rdy := u.rdy, dly := u.dly, csum := c
    peerBit := u.peerBit, draws := u.draws }

theorem Sent.idle {c : Byte} {s u : State} (h : Sent c s u) (hs : s.idle) : u.idle := by
  rw [h]
  exact hs

/-- The payload bytes go out and are added in order. -/
theorem worksOff_writeLoop (t : Byte) (k : BitVec 4) (raised : List Bool) {s : State} (hs : s.idle)
    (hack : s.ack = false) (htc : s.tc = false) (i : Nat) {bs : List Byte}
    (hbs : bs = s.payloadFrom k raised.length i) : ∃ u,
    WorksOff (raised.flatMap (settledByteEvents t)) (writeLoop t k raised.length i) (bs.flatMap wireBits) s u ∧
      Sent (bs.foldl (· + ·) s.csum) s u := by
  subst hbs
  induction raised generalizing s i with
  | nil =>
    refine ⟨s, .nil s, ?_⟩
    cases s
    cases hack
    cases htc
    rfl
  | cons r raised ih =>
    obtain ⟨o, b, d, hbyte⟩ := worksOff_settledByte hs hack htc t r (.pay k (BitVec.ofNat 8 i))
    have hacc := WorksOff.single (p := .acc (.pay k (BitVec.ofNat 8 i)))
      (s := State.byteSent { s with ack := false, dly := 0, rdy := true } o b d) hs.seqEnabled rfl
    obtain ⟨u, hrest, hu⟩ := ih (s := State.byteSent { s with
      ack := false, dly := 0, rdy := true, csum := s.csum + s.val (.pay k (BitVec.ofNat 8 i)) } o b (d + 1))
      hs rfl rfl (i + 1)
    have hall := (hbyte.append hacc).append hrest
    rw [List.append_nil] at hall
    rw [List.length_cons, State.payloadFrom_succ]
    exact ⟨u, hall, hu⟩

/-- The head of a written frame: a falling edge of `ACK`, a toggle, the length byte, and the checksum cleared (R146). -/
theorem worksOff_lengthByte {s : State} (hs : s.idle) (hack : s.ack = true) {n : Byte} (hflag : s.tc = false ∨ n ≠ 0) :
    ∃ o b d, WorksOff ([Event.seq, Event.ack false, Event.seq] ++ seqs 2 ++ transmitEvents ++ seqs 1)
      (waitFallingEdge ++ toggleReady ++ writeByte (.imm n) ++ [Prim.clrsum]) (wireBits n) s
      (State.byteSent { s with ack := false, rdy := true, csum := 0 } o b d) := by
  have hen := hs.seqEnabled
  have htoggle := worksOff_toggleReady (s := { s with ack := false }) hen
  obtain ⟨o, b, d, hbyte⟩ := worksOff_writeByte (s := { s with ack := false, rdy := true }) (src := .imm n) hs hflag
  have hall := (((worksOff_edge hen hack).append htoggle).append hbyte).append (.single hen (p := .clrsum) rfl)
  rw [List.append_nil] at hall
  exact ⟨o, b, d, hall⟩

/-- The last settled byte is the checksum, and the SEQ step behind it is `NEXT`. -/
theorem writeFrameEvents_concat (t : Byte) (raised : List Bool) (last : Bool) :
    writeFrameEvents t (raised ++ [last]) =
      [Event.seq, Event.ack false, Event.seq] ++ seqs 2 ++ transmitEvents ++ seqs 1 ++
        raised.flatMap (settledByteEvents t) ++ (settleEvents t last ++ transmitEvents) ++ [Event.seq] := by
  rw [writeFrameEvents, List.flatMap_append, List.flatMap_singleton, settledByteEvents_eq, ← List.append_assoc,
    ← List.append_assoc]
  rfl

/-- Settles O45: the length byte, the payload in the loop, and the checksum as the last settled byte. -/
theorem writeFrameStepCompletes : Obligations.WriteFrameStepCompletes := by
  intro s k raised husable hlen hen hpc hon hclk hcount hflag hack
  obtain rfl | ⟨raised, last, rfl⟩ := List.eq_nil_or_concat' raised
  · cases hlen
  have hloop : raised.length = (s.payloadEntry k).len.toNat := by simpa using hlen
  have hexec : exec (.wrf k) s = .next (s.load (writeFrame s.cfg.tSettle k (s.payloadEntry k).len)) :=
    exec_wellFormed (i := .wrf k) husable
  obtain ⟨o, b, d, hlength⟩ := worksOff_lengthByte ⟨hen, hon, hclk, hcount⟩ hack hflag
  obtain ⟨t, hbytes, ht⟩ := worksOff_writeLoop s.cfg.tSettle k raised (bs := s.payload k)
    (s := State.byteSent { s with ack := false, rdy := true, csum := 0 } o b d) ⟨hen, hon, hclk, hcount⟩ rfl rfl 0
    (by rw [State.payload_eq, hloop]; rfl)
  obtain ⟨o', b', d', hsum⟩ := worksOff_settledByte (ht.idle ⟨hen, hon, hclk, hcount⟩) (by rw [ht]) (by rw [ht])
    s.cfg.tSettle last .csumr
  obtain ⟨hrun, hbits⟩ :=
    ((hlength.append hbytes).append hsum).to_next (by rw [ht]; exact hen) (by rw [ht]; exact hpc)
  rw [← writeFrameEvents_concat, hloop, ← List.append_assoc] at hrun hbits
  have hcsum : t.val .csumr = byteSum (s.payload k) := by rw [State.val, ht]; rfl
  refine ⟨_, _, hexec, hrun, hbits.trans ?_, hcsum, rfl, rfl, rfl, ?_⟩
  · rw [hcsum]
    simp
  · rw [ht]
    exact ⟨hcount, rfl, rfl, rfl, ((State.seqEnabled_iff s).1 hen).2, rfl, rfl, rfl⟩

/-! ## The reference script (R93, R181, R182) -/

/-- An index of a laid script reads as its step's word (R60). -/
theorem scriptAt_layScript {c : Config} (is : List Instr) (i : Nat) {k : Nat} {instr : Instr}
    (hc : c.script = layScript is i) (hk : is[k]? = some instr) : scriptAt c (i + k) = encode instr := by
  rw [scriptAt, hc]
  clear hc
  induction is generalizing i k with
  | nil => cases hk
  | cons first rest ih =>
    rw [layScript]
    cases k with
    | zero =>
      cases hk
      exact Memory.getD_put_self _ _ _ _
    | succ k =>
      rw [Memory.lookup_put_ne _ _ _ (by omega), ← Nat.add_assoc, Nat.add_right_comm]
      exact ih (i + 1) hk

/-- A laid step that passes the fetch-time checks is usable at its index (R93a). -/
theorem usableStep_layScript {c : Config} {is : List Instr} (hc : c.script = layScript is 0) {k : Nat} {instr : Instr}
    (hk : is[k]? = some instr) (hwf : instr.wellFormed (entryAt c) = true) : usableStep c k = some instr := by
  have hword := scriptAt_layScript is 0 hc hk
  rw [Nat.zero_add] at hword
  exact usableStep_iff.2 ⟨hword ▸ decodeInvertsEncode instr, hwf⟩

theorem usablePrefix_of_ne_stby {c : Config} {fuel i : Nat} {instr : Instr} (h : usableStep c i = some instr)
    (hne : instr ≠ .stby) : usablePrefix c (fuel + 1) i = (usablePrefix c fuel (i + 1)).map (instr :: ·) := by
  rw [usablePrefix, h]
  cases instr with
  | stby => exact absurd rfl hne
  | _ => rfl

/-- Steps without `STBY`, then one, all usable: they are what runs from their first index on (R93). -/
theorem usablePrefix_of_steps {c : Config} {is : List Instr} (hstby : .stby ∉ is) {i fuel : Nat}
    (hfuel : is.length < fuel)
    (husable : ∀ k instr, (is ++ [Instr.stby])[k]? = some instr → usableStep c (i + k) = some instr) :
    usablePrefix c fuel i = some (is ++ [Instr.stby]) := by
  induction is generalizing i fuel with
  | nil =>
    obtain ⟨fuel, rfl⟩ := Nat.exists_eq_add_one_of_ne_zero (Nat.ne_of_gt hfuel)
    have hhead : usableStep c i = some .stby := husable 0 .stby rfl
    rw [usablePrefix, hhead]
    rfl
  | cons first rest ih =>
    obtain ⟨fuel, rfl⟩ := Nat.exists_eq_add_one_of_ne_zero (Nat.ne_of_gt (Nat.zero_lt_of_lt hfuel))
    obtain ⟨hfirst, hrest⟩ := List.ne_and_not_mem_of_not_mem_cons hstby
    have htail := ih hrest (Nat.lt_of_succ_lt_succ hfuel) (i := i + 1) fun k instr hk => by
      rw [Nat.add_right_comm]
      exact husable (k + 1) instr hk
    have hhead : usableStep c i = some first := husable 0 first rfl
    rw [usablePrefix_of_ne_stby hhead hfirst.symm, htail]
    rfl

/-- A laid script of usable steps up to its only `STBY` is well-formed (R93). -/
theorem scriptSteps_layScript {c : Config} {is : List Instr} (hc : c.script = layScript (is ++ [Instr.stby]) 0)
    (hstby : .stby ∉ is) (hlen : is.length < 256) (hwf : ∀ instr ∈ is, instr.wellFormed (entryAt c) = true) :
    scriptSteps c = some (is ++ [Instr.stby]) := by
  refine usablePrefix_of_steps hstby hlen fun k instr hk => ?_
  rw [Nat.zero_add]
  refine usableStep_layScript hc hk ?_
  obtain hmem | hmem := List.mem_append.1 (List.mem_of_getElem? hk)
  · exact hwf instr hmem
  · rw [List.mem_singleton.1 hmem]
    rfl

/-- `REF` step by step (R182). -/
theorem refSteps_eq (announce pause1 pause2 : BitVec 12) : refSteps announce pause1 pause2 =
    ([.wlvPwr true, .wlvAck true, .rdyh, .dlym announce, .rdyl, .wre, .rdyh, .rdf 4, .wfe, .rdyt, .dlyu pause1, .wre,
      .rdyt, .dlyu pause2, .rawb 0, .rdf 4, .wrf 0, .trst, .rdf 4, .wrf 1] : List Instr) ++ [Instr.stby] := rfl

/-- Settles O59: the steps of `REF` are usable, the two payloads being in bounds, and of the listed lengths. -/
theorem referenceScriptConforms : Obligations.ReferenceScriptConforms := by
  intro c announce pause1 pause2 hscript hpdir
  have hpayload0 : entryAt c 0#4 = ⟨0, 5⟩ := by rw [entryAt, hpdir]; rfl
  have hpayload1 : entryAt c 1#4 = ⟨5, 21⟩ := by rw [entryAt, hpdir]; rfl
  have hsteps : scriptSteps c = some (refSteps announce pause1 pause2) := by
    rw [refSteps_eq] at hscript ⊢
    refine scriptSteps_layScript hscript ?_ ?_ ?_
    · simp
    · simp
    · simp [Instr.wellFormed, Instr.frameOk, Instr.payloadOk, PayloadEntry.usable, hpayload0, hpayload1]
  have hsession : conformsSteps c (refSteps announce pause1 pause2) =
      ([0#4, 1#4].any (fun k => (entryAt c k).len == 5) && [0#4, 1#4].any fun k => (entryAt c k).len == 21) := rfl
  refine ⟨hsteps, ?_⟩
  simp [conforms, hsteps, hsession, hpayload0, hpayload1]

end Sys2Proof.Machine

/-! PROOFS. The statements of `spec/60_exceptions.md`: a well-formed script never faults (R93, R195), the other agents never
divert SEQ (R196), and a fault stands until reset (R197). -/

namespace Sys2Proof.Machine

/-! ## A script up to its first `STBY` (R93) -/

/-- A script usable up to its first `STBY` starts with a usable step; if that is not the `STBY`, the rest is usable so too. -/
theorem usableStep_of_usablePrefix {c : Config} {fuel i : Nat} (h : (usablePrefix c fuel i).isSome = true) :
    ∃ instr, usableStep c i = some instr ∧
      (instr ≠ .stby → ∃ f, fuel = f + 1 ∧ (usablePrefix c f (i + 1)).isSome = true) := by
  cases fuel with
  | zero => cases h
  | succ f =>
    cases hi : usableStep c i with
    | none => simp [usablePrefix, hi] at h
    | some instr =>
      refine ⟨instr, rfl, fun hne => ⟨f, rfl, ?_⟩⟩
      rwa [usablePrefix_of_ne_stby hi hne, Option.isSome_map] at h

namespace State.OnScript

variable {s t u : State} {p : Prim} {rest : List Prim}

/-- The start of a well-formed script. -/
theorem start (hscript : scriptWellFormed s.cfg = true) (hpc : s.pc = 0) (htodo : s.todo = []) (hfault : s.fault = 0) :
    s.OnScript where
  script := hscript
  fault := hfault
  pc := by rw [hpc]; exact hscript
  todo := .inl htodo
  stby _ := .inl htodo

/-- Nothing but the configuration, `PC`, `TODO` and `FAULT` matters. -/
theorem congr (hs : s.OnScript) (hcfg : t.cfg = s.cfg) (hpc : t.pc = s.pc) (htodo : t.todo = s.todo)
    (hfault : t.fault = s.fault) : t.OnScript where
  script := by rw [hcfg]; exact hs.script
  fault := hfault.trans hs.fault
  pc := by rw [hcfg, hpc]; exact hs.pc
  todo := hs.todo.congr hcfg hpc htodo
  stby := by rw [hcfg, hpc, htodo]; exact hs.stby

/-- Where SEQ is at another primitive than `HALT`, the step under way is not the `STBY`. -/
theorem not_stby (hs : s.OnScript) (htodo : s.todo = p :: rest) (hp : p ≠ .halt) :
    usableStep s.cfg s.pc.toNat ≠ some .stby := by
  intro hstby
  have hleft := hs.stby hstby
  simp [htodo, hp] at hleft

/-- Behind a step that is not the `STBY` the script goes on, so that step is not at the last index. -/
theorem next_index (hs : s.OnScript) (hstby : usableStep s.cfg s.pc.toNat ≠ some .stby) :
    s.pc ≠ 255 ∧ (usablePrefix s.cfg (256 - (s.pc + 1).toNat) (s.pc + 1).toNat).isSome = true := by
  obtain ⟨i, hi, hbehind⟩ := usableStep_of_usablePrefix hs.pc
  obtain ⟨f, hf, hahead⟩ := hbehind fun heq => hstby (heq ▸ hi)
  have hlast : s.pc ≠ 255 := by
    intro hpc
    obtain rfl : f = 0 := by simpa [hpc] using hf.symm
    cases hahead
  obtain ⟨_, hsucc⟩ := pc_succ_toNat hlast
  obtain rfl : f = 256 - (s.pc + 1).toNat := by omega
  exact ⟨hlast, hsucc ▸ hahead⟩

/-- No fault can be raised: not by the fetch, whose step is usable, nor by `NEXT`, which is not at the last index (R191). -/
theorem not_faulting (hs : s.OnScript) (hfetch : s.todo = [] → usableStep s.cfg s.pc.toNat = none)
    (hnext : s.todo ≠ [] → ∃ rest, s.todo = .next :: rest ∧ s.pc = 255) : False := by
  by_cases htodo : s.todo = []
  · obtain ⟨i, hi, -⟩ := usableStep_of_usablePrefix hs.pc
    cases hi.symm.trans (hfetch htodo)
  · obtain ⟨rest, hhead, hlast⟩ := hnext htodo
    exact (hs.next_index (hs.not_stby hhead (by simp))).1 hlast

/-- A completed primitive leaves the script on its step, which is not the `STBY`, or was its `NEXT` and moves on. -/
theorem advance (hs : s.OnScript) (htodo : s.todo = p :: rest) (hp : perform p s = .advance u) :
    State.OnScript { u with todo := rest } := by
  obtain ⟨hcfg, hfault, -⟩ := perform_keeps hp
  have hscript : scriptWellFormed u.cfg = true := hcfg ▸ hs.script
  have hstby := hs.not_stby htodo (by rintro rfl; cases hp)
  obtain ⟨i, hi, hsuf⟩ := hs.todo.resolve_left (by simp [htodo])
  obtain ⟨hlast, hinner⟩ := suffix_cons_next (htodo ▸ hsuf) (next_not_mem_expand s i)
  by_cases hnext : p = .next
  · have hpc : u.pc = s.pc + 1 := ((perform_pc hp).2 hnext).2
    have hahead := (hs.next_index hstby).2
    exact {
      script := hscript
      fault := hfault.trans hs.fault
      pc := by rw [← hcfg, ← hpc] at hahead; exact hahead
      todo := .inl (hlast hnext)
      stby := fun _ => .inl (hlast hnext) }
  · have hpc : u.pc = s.pc := (perform_pc hp).1 hnext
    have hahead := hs.pc
    rw [← hcfg, ← hpc] at hahead hstby
    exact {
      script := hscript
      fault := hfault.trans hs.fault
      pc := hahead
      todo := State.onStep_of_suffix hcfg hpc hi (hinner hnext).1
      stby := fun heq => absurd heq hstby }

/-- The fetch of the usable step at `PC`. -/
theorem load {i : Instr} (hs : s.OnScript) (hi : usableStep s.cfg s.pc.toNat = some i) :
    (s.load (expand s i)).OnScript where
  script := hs.script
  fault := hs.fault
  pc := hs.pc
  todo := State.onStep_of_suffix rfl rfl hi (List.suffix_refl _)
  stby hstby := by
    cases hi.symm.trans hstby
    exact .inr rfl

/-- Every event of every agent keeps the script running without fault at or before its first `STBY`. -/
theorem of_act {e : Event} (hs : s.OnScript) (h : act e s = .next t) : t.OnScript := by
  have hcfg := act_cfg h
  obtain ⟨htodo, hpc, -, -, -, hfault⟩ | ⟨htodo, hpc, hfault⟩ | ⟨-, p, rest, u, htodo, hp, rfl⟩ | ⟨-, hfetch, hnext⟩ |
    ⟨-, i, hi, rfl⟩ := act_cases h
  · exact hs.congr hcfg hpc htodo hfault
  · exact start (hcfg ▸ hs.script) hpc htodo hfault
  · exact hs.advance htodo hp
  · exact (hs.not_faulting hfetch hnext).elim
  · exact hs.load hi

theorem of_step (hs : s.OnScript) (h : step s = .next t) : t.OnScript :=
  step_keeps_of_act (fun _ _ _ hs => hs.congr rfl rfl rfl rfl) (fun _ _ _ hs h => hs.of_act h) hs h

end State.OnScript

/-- Settles O55: every event keeps the run of the script, whose steps are usable and whose `NEXT` always has an index to go
to; the run law is the invariant followed from the start. -/
theorem wellFormedScriptNeverFaults : Obligations.WellFormedScriptNeverFaults := by
  refine ⟨fun _ _ hs h => hs.of_step h, fun _ => State.OnScript.start, fun s t k hscript hpc htodo hfault hrun => ?_⟩
  have hstart : s.OnScript := .start hscript hpc htodo hfault
  have hend : t.OnScript := run_keeps_of_step (fun _ _ hs h => hs.of_step h) k hstart hrun
  exact hend.fault

/-! ## The other agents (R196) -/

/-- Settles O35: each of the other agents' events writes its own few fields. -/
theorem otherAgentsNeverDivertSeq : Obligations.OtherAgentsNeverDivertSeq :=
  fun _ _ _ hseq hrst h => act_keeps h hseq hrst

/-! ## A recorded fault (R197) -/

theorem State.seqEnabled_of_faulted {s : State} (h : s.fault ≠ 0) : s.seqEnabled = false :=
  Bool.eq_false_iff.2 fun hen => h ((State.seqEnabled_iff s).1 hen).2

/-- Settles O15: a fault stops SEQ, the other agents and the release of `RST` write nothing of SEQ's, and the assertion
gives `FAULT` its reset value. -/
theorem onlyResetClearsFault : Obligations.OnlyResetClearsFault := by
  intro e s t hfault h
  have hstopped : e = .seq → t = s := by
    rintro rfl
    cases (seqStep_disabled (State.seqEnabled_of_faulted hfault)).symm.trans h
    rfl
  refine ⟨hstopped, fun hreset => ?_, ?_⟩
  · cases e with
    | seq => simp [hstopped rfl]
    | rst level =>
      cases h
      cases level with
      | false => simp [setRst]
      | true => exact absurd rfl hreset
    | _ =>
      rw [act_keeps h (by simp) (by simp)]
      simp
  · rintro rfl
    cases h
    rfl

end Sys2Proof.Machine

/-! PROOFS. The statements of `spec/70_reset_and_hazards.md`: what reset leaves is held while `RST` is asserted (R210). -/

namespace Sys2Proof.Machine

variable {s t : State}

/-! ## The owner of `RST` (R210) -/

theorem seqStep_keeps_rst (h : seqStep s = .next t) : t.rst = s.rst := by
  obtain rfl | ⟨p, rest, u, -, hp, rfl⟩ | ⟨-, c, rfl⟩ | ⟨-, i, rfl⟩ := seqStep_outcomes h
  · rfl
  · obtain ⟨-, -, -, -, -, -, -, -, hrst, -⟩ := perform_keeps hp
    exact hrst
  · rfl
  · rfl

/-- Only the platform's own event asserts or releases `RST`. -/
theorem act_keeps_rst {e : Event} (he : ∀ b, e ≠ .rst b) (h : act e s = .next t) : t.rst = s.rst := by
  by_cases hseq : e = .seq
  · subst hseq
    exact seqStep_keeps_rst h
  · rw [act_keeps h hseq he]

/-! ## While `RST` is asserted no agent of CORE steps, and PEER moves the pins (R210) -/

theorem State.seqEnabled_of_reset (h : s.rst = true) : s.seqEnabled = false := by
  simp [State.seqEnabled, h]

theorem State.engEnabled_of_reset (h : s.rst = true) : s.engEnabled = false := by
  simp [State.engEnabled, h]

theorem tick_of_reset (h : s.rst = true) : tick s = s := if_pos h

/-- While `RST` is asserted an event, reset's own apart, writes the pins, PEER's sample and the draw counter only. -/
theorem act_of_reset {e : Event} (hrst : s.rst = true) (he : ∀ b, e ≠ .rst b) (h : act e s = .next t) :
    t = { s with pwr := t.pwr, ack := t.ack, clk := t.clk, peerBit := t.peerBit, draws := t.draws } := by
  have heng := State.engEnabled_of_reset hrst
  cases e with
  | seq =>
    cases (seqStep_disabled (State.seqEnabled_of_reset hrst)).symm.trans h
    rfl
  | tick => cases h; rw [tick_of_reset hrst]
  | clkFall =>
    cases h
    obtain hclk | hclk := Bool.eq_false_or_eq_true s.clk
    · rw [clkFall_of_disabled hclk heng]
    · rw [clkFall_of_low hclk]
  | clkRise drv =>
    cases h
    obtain hclk | hclk := Bool.eq_false_or_eq_true s.clk
    · rw [clkRise_of_high drv hclk]
    · rw [clkRise_of_disabled drv hclk heng]
  | ack level => cases h; rfl
  | pwr level => cases h; rfl
  | rst level => exact absurd rfl (he level)

/-! ## What reset leaves is held (R210) -/

/-- Asserting `RST` brings CORE to its reset values from anywhere. -/
theorem State.enterReset_inReset (s : State) : s.enterReset.inReset := rfl

/-- Neither the pins nor the model's own fields belong to what reset leaves. -/
theorem State.inReset.of_outside (hs : s.inReset) (pwr ack clk peerBit : Bool) (queue : List Event) (draws : Nat) :
    State.inReset { s with
      pwr := pwr, ack := ack, clk := clk, peerBit := peerBit, queue := queue, draws := draws } := by
  rw [← hs]
  rfl

/-- Every event keeps what reset leaves: an assertion resets, a release ends the hold, and under any other event that leaves
`RST` asserted it was asserted before. -/
theorem act_keeps_resetHeld {e : Event} (hs : s.resetHeld) (h : act e s = .next t) : t.resetHeld := by
  intro htrst
  obtain ⟨level, rfl⟩ | he := em (∃ level, e = .rst level)
  · cases h
    cases level with
    | true => exact s.enterReset_inReset
    | false => exact Bool.noConfusion htrst
  · rw [not_exists] at he
    have hsrst : s.rst = true := (act_keeps_rst he h).symm.trans htrst
    rw [act_of_reset hsrst he h]
    exact (hs hsrst).of_outside ..

/-- Settles O37: no event writes CORE's state while `RST` is asserted, and its assertion gives all of it its reset value. -/
theorem resetValuesHeldWhileAsserted : Obligations.ResetValuesHeldWhileAsserted :=
  fun _ _ => step_keeps_of_act (fun _ _ _ hs hrst => (hs hrst).of_outside ..) fun _ _ _ => act_keeps_resetHeld

end Sys2Proof.Machine
